-- ==== Sys2Proof/Word.lean ====
section
/-! DEFINITION. The datum types of the machine: the byte, the nine-bit program counter, and the names of the eight
registers (spec 00_scope.md R5, R6; 10_state.md R12, R16). -/

namespace Sys2Proof

/-- One cell of memory, one register, one operand: eight bits, always read as an unsigned number (R6, R12, R40). -/
abbrev Byte := BitVec 8

/-- The program counter: nine bits, of which a run uses the values 0 to 256 (R16). -/
abbrev Pc := BitVec 9

/-- The eight general registers `x[0]` to `x[7]`, under the names R0 to R7 of assembly text (R12). -/
inductive Reg where
  | r0 | r1 | r2 | r3 | r4 | r5 | r6 | r7
deriving DecidableEq, Repr

/-- `sp` is another name for `x[7]` (R7, R13): the same register, by convention only. -/
abbrev Reg.sp : Reg := Reg.r7

end Sys2Proof
end

