-- ==== Sys2Proof/Config.lean ====
section
/-! DEFINITION. The implementation parameters of spec 00_scope.md R5 that are numbers of the machine, and the one free
value of the model. The opcode map OPMAP stands in Decode.lean, the fault codes in Machine/Ports.lean. -/

namespace Sys2Proof.Config

/-- MEM_SIZE: the number of memory cells, so that 0 to 255 are the addresses (R5, R40). -/
abbrev memSize : Nat := 256

/-- MAX_ILEN: the bytes of the longest instruction (R5, R60). -/
abbrev maxInstrBytes : Nat := 3

/-- LOAD_BASE: the address of the first image byte (R5, R181). -/
abbrev loadBase : Nat := 0

/-- SP_INIT: what a successful `load` puts in register 7 (R5, R181). -/
abbrev spInit : Byte := 0xF4

/-- The value of every memory cell after reset (R30, R40 "zero-initialized"). -/
abbrev cellReset : Byte := 0x00

/-- REG_RESET: the value of every general register after reset, register 7 among them (R5, R30). -/
abbrev regReset : Byte := 0x00

/-- PC_RESET (R5, R30). -/
abbrev pcReset : Pc := 0

/-- FL_RESET: the three stored flag bits after reset (R5, R30). -/
abbrev flReset : BitVec 3 := 0

/-- DESIGN CHOICE (log entry 3). The free value: a byte the spec does not state, one for each index. It has no body, so
nothing can be proved of what it is. One place draws from it: the memory that a failed `load` leaves (R152, R181). No
cycle does (R165). The index comes from the state's own counter `freeIx`. -/
opaque freeByte : Nat → Byte

end Sys2Proof.Config
end

