-- ==== Sys2Proof/Machine/State.lean ====
section
/-! DEFINITION. The state of the machine, the reasons a step can stop, and the state after reset (spec 10_state.md R12
to R30). -/

namespace Sys2Proof.Machine

/-- The register file: eight bytes, none hardwired (R12). Read and written through Machine/Operands.lean only. -/
structure Regs where
  r0 : Byte
  r1 : Byte
  r2 : Byte
  r3 : Byte
  r4 : Byte
  r5 : Byte
  r6 : Byte
  r7 : Byte
deriving DecidableEq, Repr

/-- The control state of the block (R21). -/
inductive CoreState where
  /-- A cycle may execute. -/
  | running
  /-- HLT has executed. Terminal until reset. -/
  | halted
  /-- A fatal error was raised. Terminal until reset. -/
  | faulted
deriving DecidableEq, Repr

/-- The kinds of error of R151, in the order of their codes; the codes stand in Machine/Ports.lean. -/
inductive ErrorKind where
  /-- No fault latched. -/
  | none
  /-- The image is longer than 256 bytes; raised by `load` (R152). -/
  | loadError
  /-- An event, never latched in the fault record (R159). -/
  | unknownOpcode
  /-- The stack pointer would be decremented below 0 (R156). -/
  | stackError
  /-- A fetch address above 255, or a return address of 256 (R153). -/
  | memoryAccessError
  /-- Reserved and never raised (R154). -/
  | unsupportedALUOperation
  /-- A register operand byte above 7 (R158). -/
  | registerIndexError
deriving DecidableEq, Repr

/-- The fault record: four fields, written when the state becomes FAULTED, cleared by reset (R23). -/
structure FaultRecord where
  kind : ErrorKind
  pc : Pc
  opcodeValid : Bool
  opcode : Byte
deriving DecidableEq, Repr

/-- The fault record with nothing latched (R30). -/
def FaultRecord.clear : FaultRecord := { kind := .none, pc := 0, opcodeValid := false, opcode := 0 }

/-- One record of the unknown-opcode event stream: the address and the byte (R25, and the 8-bit ports `unk_pc`,
`unk_opcode` of R11). -/
structure UnknownRecord where
  addr : Byte
  opcode : Byte
deriving DecidableEq, Repr

/-- The memory array as data: the cells whose value is not the reset value, as (address, byte) pairs with strictly
rising addresses (R40). Read and written through Machine/Memory.lean only. -/
abbrev Memory := List Host.Cell

/-- Everything the spec gives the machine (R27), and two fields of the model's own at the end. -/
structure State where
  /-- `x[0]` to `x[7]` (R12). -/
  x : Regs
  /-- The program counter (R16). -/
  pc : Pc
  /-- The flag register: the three bits it stores, L, G, E from bit 2 down; the byte `fl` has zeros above (R19, R31). -/
  fl : BitVec 3
  /-- RUNNING, HALTED or FAULTED (R21). -/
  state : CoreState
  /-- The fault record (R23). -/
  fault : FaultRecord
  /-- `MEM[0..255]` (R40). -/
  mem : Memory
  /-- The output stream, oldest first (R24). -/
  out : List Byte
  /-- The unknown-opcode event stream, oldest first (R25). -/
  unk : List UnknownRecord
  /-- Whether a cycle has executed since reset. The spec implies it: `load` has a meaning only before (R181, R182; log
  entry 2). No instruction reads it. -/
  ran : Bool
  /-- The model's own (log entry 3): the index of the next free value. -/
  freeIx : Nat
deriving DecidableEq, Repr

/-- Why `step` stops. Both reasons are the end of a run and not an error of the program: the step is defined only while
the state is RUNNING (R80, R89). -/
inductive Fault where
  /-- Raised by `step` in HALTED: the run is over and complete, no cycle executes (R89, R90 outcome a). Safe: the
  hardware executes no cycle and changes no state either. -/
  | halted
  /-- Raised by `step` in FAULTED: the run is over and failed, no cycle executes (R89, R90 outcome b). Safe: the hardware
  executes no cycle and changes no state either. -/
  | faulted
deriving DecidableEq, Repr

/-- What has no meaning in this model. -/
inductive Refusal where
  /-- Reserved by the host's interface for an arm of `exec` without a meaning. No arm answers it. Safe. -/
  | notModelled (mnemonic : String)
  /-- Raised by the host operation `load` in HALTED or FAULTED: `load` requires RUNNING (R181). Safe: the spec gives it no
  effect there. -/
  | loadWhileNotRunning
  /-- Raised by the host operation `load` once a cycle has executed since reset: "A model refuses (gives no meaning to) a
  `load` in any other state" (R182). Safe. -/
  | loadAfterCycle
deriving DecidableEq, Repr

/-- The machine right after `reset` (R30, R180): every general register, the flags and the program counter zero, memory
zero (nothing listed), RUNNING, nothing latched, both streams empty. -/
def State.reset : State where
  x := ⟨Config.regReset, Config.regReset, Config.regReset, Config.regReset,
        Config.regReset, Config.regReset, Config.regReset, Config.regReset⟩
  pc := Config.pcReset
  fl := Config.flReset
  state := .running
  fault := FaultRecord.clear
  mem := []
  out := []
  unk := []
  ran := false
  freeIx := 0

end Sys2Proof.Machine
end

