-- ==== Sys2Proof/Machine/Flags.lean ====
section
/-! DEFINITION. The condition flag register and the ALU that drives it (spec 10_state.md R19, R20, R31; 44_alu.md R130,
R134). -/

namespace Sys2Proof.Machine

/-- The EQUAL bit, bit 0 of `fl` (R19). -/
def State.flagE (s : State) : Bool := s.fl.getLsbD 0

/-- The GREATER-THAN bit, bit 1 of `fl` (R19). -/
def State.flagG (s : State) : Bool := s.fl.getLsbD 1

/-- The LESS-THAN bit, bit 2 of `fl` (R19). -/
def State.flagL (s : State) : Bool := s.fl.getLsbD 2

/-- The byte `fl` of R19: five zeros above the three stored bits (R31). -/
def State.flByte (s : State) : Byte := s.fl.setWidth 8

/-- The flags of a compare: exactly one of the three bits, by the unsigned order (R130, R133, R134). -/
def compareFlags (a b : Byte) : BitVec 3 :=
  if a = b then 0b001 else if b.toNat < a.toNat then 0b010 else 0b100

/-- The operations the decoder can select in the ALU: a closed set of three (R130, R154). -/
inductive AluOp where
  | add | mul | cmp
deriving DecidableEq, Repr

/-- The two-bit operation select; 3 is never driven (R130). -/
def AluOp.select : AluOp → BitVec 2
  | .add => 0
  | .mul => 1
  | .cmp => 2

/-- The outputs of the ALU (R130). The result is connected to nothing (R131). The flag value is there exactly when its
write enable is 1; for ADD and MUL the spec says "don't care". -/
structure AluOut where
  result : Byte
  flags : Option (BitVec 3)
deriving DecidableEq, Repr

/-- The combinational unit: the low eight bits of the sum or product, 0 for CMP; flags for CMP only (R130, R134). -/
def alu (op : AluOp) (a b : Byte) : AluOut :=
  match op with
  | .add => { result := BitVec.ofNat 8 ((a.toNat + b.toNat) % 256), flags := none }
  | .mul => { result := BitVec.ofNat 8 ((a.toNat * b.toNat) % 256), flags := none }
  | .cmp => { result := 0, flags := some (compareFlags a b) }

/-- The end of an ALU instruction: the flag register takes the unit's flags when the write enable is 1, all of it and
never merged (R20, R31); the result reaches no register (R130, R131). -/
def State.latchAlu (s : State) (o : AluOut) : State :=
  match o.flags with
  | some f => { s with fl := f }
  | none => s

end Sys2Proof.Machine
end

