-- ==== Sys2Proof/Syntax.lean ====
section
/-! DEFINITION. The instruction set as abstract syntax: one constructor per row of spec/opcode_table.json, in the
table's order (spec 30_encoding.md R60, R64). -/

namespace Sys2Proof

/-- The fourteen operations of R2 and the decoder's default, the skip of an unknown opcode byte (R86). A register
operand is a register's name, since an operand byte above 7 is rejected in the decode phase (R62, R83); the immediate of
LDI is the whole byte (R63); the skip carries the byte it records (R25). -/
inductive Instr where
  | nop
  | hlt
  | ret
  | push (r : Reg)
  | pop (r : Reg)
  | prn (r : Reg)
  | call (r : Reg)
  | jmp (r : Reg)
  | jeq (r : Reg)
  | jne (r : Reg)
  | ldi (r : Reg) (v : Byte)
  | add (a b : Reg)
  | mul (a b : Reg)
  | cmp (a b : Reg)
  | skip (o : Byte)
deriving DecidableEq, Repr

end Sys2Proof
end

