-- ==== Sys2Proof/Decode.lean ====
section
/-! DEFINITION. The opcode map, the decoder and the encoder (spec 30_encoding.md; 40_fetch_decode_execute.md R83), and
the assembly text of R69. Decoding is total on any list of bytes and rejects by name. -/

namespace Sys2Proof

/-- The byte that names a register in an operand position: its index (R62). -/
def Reg.byte : Reg → Byte
  | .r0 => 0
  | .r1 => 1
  | .r2 => 2
  | .r3 => 3
  | .r4 => 4
  | .r5 => 5
  | .r6 => 6
  | .r7 => 7

/-- The registers in index order (R12). -/
def Reg.all : List Reg := [.r0, .r1, .r2, .r3, .r4, .r5, .r6, .r7]

/-- The register a whole operand byte names; none for 8 to 255. The index is not masked to three bits (R62). -/
def Reg.ofByte (b : Byte) : Option Reg := Reg.all.find? (fun r => r.byte == b)

/-- The fourteen mnemonics of the opcode map (R64). -/
inductive Op where
  | nop | hlt | ret | push | pop | prn | call | jmp | jeq | jne | ldi | add | mul | cmp
deriving DecidableEq, Repr

/-- OPMAP: the opcode byte of each mnemonic (R64). The spec takes the values other than NOP's from general knowledge
(92_eei_decisions.md D1; log entry 5). -/
def Op.byte : Op → Byte
  | .nop => 0x00
  | .hlt => 0x01
  | .ret => 0x11
  | .push => 0x45
  | .pop => 0x46
  | .prn => 0x47
  | .call => 0x50
  | .jmp => 0x54
  | .jeq => 0x55
  | .jne => 0x56
  | .ldi => 0x82
  | .add => 0xA0
  | .mul => 0xA2
  | .cmp => 0xA7

/-- The rows of the opcode map in the table's order (R64). -/
def Op.all : List Op :=
  [.nop, .hlt, .ret, .push, .pop, .prn, .call, .jmp, .jeq, .jne, .ldi, .add, .mul, .cmp]

/-- The lookup of a whole opcode byte, mask 0xFF in every row; none for the 242 unknown bytes (R64, R67). -/
def Op.ofByte (b : Byte) : Option Op := Op.all.find? (fun o => o.byte == b)

/-- The four formats of R60, each with the way its operands make an instruction. -/
inductive Shape where
  /-- Format Z: no operand. -/
  | z (i : Instr)
  /-- Format R: one register. -/
  | r (f : Reg → Instr)
  /-- Format RR: two registers. -/
  | rr (f : Reg → Reg → Instr)
  /-- Format RI: a register, then an immediate. -/
  | ri (f : Reg → Byte → Instr)

/-- The format of each mnemonic (R60, R64). -/
def Op.shape : Op → Shape
  | .nop => .z .nop
  | .hlt => .z .hlt
  | .ret => .z .ret
  | .push => .r .push
  | .pop => .r .pop
  | .prn => .r .prn
  | .call => .r .call
  | .jmp => .r .jmp
  | .jeq => .r .jeq
  | .jne => .r .jne
  | .ldi => .ri .ldi
  | .add => .rr .add
  | .mul => .rr .mul
  | .cmp => .rr .cmp

/-- The number of operand bytes of a format (R60). -/
def Shape.operands : Shape → Nat
  | .z _ => 0
  | .r _ => 1
  | .rr _ => 2
  | .ri _ => 2

/-- The number of operand bytes of a known opcode (R60, R61): a property of the table row, not of a bit field. -/
def Op.operands (o : Op) : Nat := o.shape.operands

/-- Why the decoder rejects a list of bytes, each with the opcode byte where one was there. The step turns these into
the faults of R82, R83. -/
inductive DecodeError where
  /-- There is no byte at all: the opcode fetch failed (R82). -/
  | opcodeMissing
  /-- A known opcode with an operand byte past the end (R83, R153 cause 2). -/
  | operandMissing (opcode : Byte)
  /-- A known opcode with a register operand byte above 7 (R62). -/
  | registerIndex (opcode : Byte)
deriving DecidableEq, Repr

/-- The operand part of the decode phase: all operand bytes are there before any index is checked, and the first index
is checked before the second (R83, R155). -/
def decodeOperands (opcode : Byte) : Shape → List Byte → Except DecodeError (Instr × List Byte)
  | .z i, rest => .ok (i, rest)
  | .r f, a :: rest =>
    match Reg.ofByte a with
    | some r => .ok (f r, rest)
    | none => .error (.registerIndex opcode)
  | .rr f, a :: b :: rest =>
    match Reg.ofByte a, Reg.ofByte b with
    | some ra, some rb => .ok (f ra rb, rest)
    | _, _ => .error (.registerIndex opcode)
  | .ri f, a :: v :: rest =>
    match Reg.ofByte a with
    | some r => .ok (f r v, rest)
    | none => .error (.registerIndex opcode)
  | .r _, [] => .error (.operandMissing opcode)
  | .rr _, [] => .error (.operandMissing opcode)
  | .rr _, [_] => .error (.operandMissing opcode)
  | .ri _, [] => .error (.operandMissing opcode)
  | .ri _, [_] => .error (.operandMissing opcode)

/-- The decode phase on the bytes from the program counter upward: the instruction and the bytes after it. An unlisted
opcode byte is the one-byte skip, whatever follows it (R64, R67, R83, R86). -/
def decode : List Byte → Except DecodeError (Instr × List Byte)
  | [] => .error .opcodeMissing
  | b :: rest =>
    match Op.ofByte b with
    | some o => decodeOperands b o.shape rest
    | none => .ok (.skip b, rest)

/-- The bytes of an instruction, at ascending addresses: opcode, first operand, second operand (R45, R60, R69). -/
def encode : Instr → List Byte
  | .nop => [Op.nop.byte]
  | .hlt => [Op.hlt.byte]
  | .ret => [Op.ret.byte]
  | .push r => [Op.push.byte, r.byte]
  | .pop r => [Op.pop.byte, r.byte]
  | .prn r => [Op.prn.byte, r.byte]
  | .call r => [Op.call.byte, r.byte]
  | .jmp r => [Op.jmp.byte, r.byte]
  | .jeq r => [Op.jeq.byte, r.byte]
  | .jne r => [Op.jne.byte, r.byte]
  | .ldi r v => [Op.ldi.byte, r.byte, v]
  | .add a b => [Op.add.byte, a.byte, b.byte]
  | .mul a b => [Op.mul.byte, a.byte, b.byte]
  | .cmp a b => [Op.cmp.byte, a.byte, b.byte]
  | .skip o => [o]

/-- The three bytes of a table word: bit 0 is the least significant bit of the first byte, the second byte is bits 15 to
8, the third bits 23 to 16, and the bits from `nbits` up are zero. -/
def tableBytes (nbits w : Nat) : List Byte :=
  [BitVec.ofNat 8 (w % 2 ^ nbits), BitVec.ofNat 8 (w % 2 ^ nbits / 2 ^ 8), BitVec.ofNat 8 (w % 2 ^ nbits / 2 ^ 16)]

/-- The instruction the decoder reads from a table word. -/
def decodeTableWord (nbits w : Nat) : Option Instr :=
  match decode (tableBytes nbits w) with
  | .ok (i, _) => some i
  | .error _ => none

/-- The name of a register in assembly text (R12, R69). -/
def Reg.text : Reg → String
  | .r0 => "R0"
  | .r1 => "R1"
  | .r2 => "R2"
  | .r3 => "R3"
  | .r4 => "R4"
  | .r5 => "R5"
  | .r6 => "R6"
  | .r7 => "R7"

/-- The assembly text of an instruction: capital mnemonic, operands in the order of the operand bytes, separated by a
comma, immediates in decimal; a byte that is no instruction is `.byte v` (R69). -/
def Instr.text : Instr → String
  | .nop => "NOP"
  | .hlt => "HLT"
  | .ret => "RET"
  | .push r => "PUSH " ++ r.text
  | .pop r => "POP " ++ r.text
  | .prn r => "PRN " ++ r.text
  | .call r => "CALL " ++ r.text
  | .jmp r => "JMP " ++ r.text
  | .jeq r => "JEQ " ++ r.text
  | .jne r => "JNE " ++ r.text
  | .ldi r v => "LDI " ++ r.text ++ ", " ++ toString v.toNat
  | .add a b => "ADD " ++ a.text ++ ", " ++ b.text
  | .mul a b => "MUL " ++ a.text ++ ", " ++ b.text
  | .cmp a b => "CMP " ++ a.text ++ ", " ++ b.text
  | .skip o => ".byte " ++ toString o.toNat

end Sys2Proof
end

