-- ==== Sys2Proof/Machine/Memory.lean ====
section
/-! DEFINITION. The memory array of spec 20_memory.md as a canonical list of cells: reading, writing, and the canonical
form. -/

namespace Sys2Proof.Machine

/-- What an address that the list does not hold reads as (R30, R40: zero-initialized). -/
def Memory.unlisted : Byte := Config.cellReset

/-- The byte in cell `a` (R40). -/
def Memory.get : Memory → Nat → Byte
  | [], _ => Memory.unlisted
  | (k, v) :: m, a => if k = a then v else Memory.get m a

/-- Cell `a` becomes `v` (R40). The list stays rising and holds no cell that equals the unlisted value. -/
def Memory.set : Memory → Nat → Byte → Memory
  | [], a, v => if v = Memory.unlisted then [] else [(a, v)]
  | (k, w) :: m, a, v =>
    if a < k then
      if v = Memory.unlisted then (k, w) :: m else (a, v) :: (k, w) :: m
    else if a = k then
      if v = Memory.unlisted then m else (a, v) :: m
    else (k, w) :: Memory.set m a v

/-- The canonical form from address `lo` up: rising addresses, all of them cells of the array, none listed with the
value an unlisted address reads as. -/
def Memory.wfFrom : Nat → Memory → Bool
  | _, [] => true
  | lo, (k, v) :: m =>
    decide (lo ≤ k) && decide (k < Config.memSize) && decide (v ≠ Memory.unlisted) && Memory.wfFrom (k + 1) m

/-- The canonical form: equal memories are equal data. -/
def Memory.wf (m : Memory) : Bool := Memory.wfFrom 0 m

/-- The bytes `bs` in the cells from `a` upward; what would lie past the last cell is dropped. -/
def Memory.setBytes : Memory → Nat → List Byte → Memory
  | m, _, [] => m
  | m, a, b :: bs => Memory.setBytes (if a < Config.memSize then Memory.set m a b else m) (a + 1) bs

/-- The bytes of at most `n` cells from `a` upward, as far as there are cells (R43, R46: nothing wraps). -/
def Memory.window (m : Memory) : Nat → Nat → List Byte
  | 0, _ => []
  | n + 1, a => if a < Config.memSize then Memory.get m a :: Memory.window m n (a + 1) else []

end Sys2Proof.Machine
end

