-- ==== Sys2Proof/Machine/Operands.lean ====
section
/-! DEFINITION. The operand forms: the register file's read and write (spec 10_state.md R12 to R15), the program
counter multiplexer with its six sources (45_branch.md R140), and the bytes that the fetch and decode phases look at
(40_fetch_decode_execute.md R81 to R83). The immediate of LDI is the operand byte as it is (30_encoding.md R63). -/

namespace Sys2Proof.Machine

/-- A read of the register file (R12). -/
def Regs.get (x : Regs) : Reg → Byte
  | .r0 => x.r0
  | .r1 => x.r1
  | .r2 => x.r2
  | .r3 => x.r3
  | .r4 => x.r4
  | .r5 => x.r5
  | .r6 => x.r6
  | .r7 => x.r7

/-- A write of the register file: the register holds what was last written to it (R12). -/
def Regs.set (x : Regs) (r : Reg) (v : Byte) : Regs :=
  match r with
  | .r0 => { x with r0 := v }
  | .r1 => { x with r1 := v }
  | .r2 => { x with r2 := v }
  | .r3 => { x with r3 := v }
  | .r4 => { x with r4 := v }
  | .r5 => { x with r5 := v }
  | .r6 => { x with r6 := v }
  | .r7 => { x with r7 := v }

/-- `x[r]` (R7). -/
def State.reg (s : State) (r : Reg) : Byte := s.x.get r

/-- `x[r] <- v` (R7). -/
def State.setReg (s : State) (r : Reg) (v : Byte) : State := { s with x := s.x.set r v }

/-- The six sources of the next program counter (R140). -/
inductive PcSource where
  /-- `pc`: HLT, and every cycle that raises a fault. -/
  | hold
  /-- `pc + 1` -/
  | inc1
  /-- `pc + 2` -/
  | inc2
  /-- `pc + 3` -/
  | inc3
  /-- A register's value. -/
  | reg (target : Byte)
  /-- A byte read from memory. -/
  | mem (target : Byte)
deriving DecidableEq, Repr

/-- The selection of the next program counter: the incrementers do not wrap on any value a run reaches, and a target has
a zero in bit 8 with nothing added to it (R140). -/
def PcSource.next (pc : Pc) : PcSource → Pc
  | .hold => pc
  | .inc1 => pc + 1
  | .inc2 => pc + 2
  | .inc3 => pc + 3
  | .reg t => t.setWidth 9
  | .mem t => t.setWidth 9

/-- The program counter's one change in a cycle (R17). -/
def State.selectPc (s : State) (src : PcSource) : State := { s with pc := src.next s.pc }

/-- The byte in cell `a` of the state's memory. -/
def State.byteAt (s : State) (a : Nat) : Byte := s.mem.get a

/-- The bytes the fetch and decode phases may read: from the program counter upward, at most the longest instruction,
and none past cell 255 (R82, R83). -/
def State.fetchBytes (s : State) : List Byte := s.mem.window Config.maxInstrBytes s.pc.toNat

/-- The fetch and decode phases: the instruction at the program counter, or why there is none (R81 to R83). -/
def State.fetchDecode (s : State) : Except DecodeError Instr :=
  match decode s.fetchBytes with
  | .ok (i, _) => .ok i
  | .error e => .error e

end Sys2Proof.Machine
end

