-- ==== Sys2Proof/Machine/Ops.lean ====
section
/-! DEFINITION. The operations the meanings share: memory accesses with their range check, the stack pointer's
decrement, the two streams, and raising a fault (spec 00_scope.md R7; 20_memory.md R43; 42_stack.md R110;
60_exceptions.md R157). There is no return from a fault (R161). -/

namespace Sys2Proof.Machine

/-- The outcome of one step. -/
abbrev StepOutcome := Host.Outcome State Fault Refusal

/-- A part of an instruction's Operation: its result, or the kind of the fault it raises (R7). -/
abbrev Attempt (α : Type) := Except ErrorKind α

/-- `MemRead(a, 1)`: MemoryAccessError outside 0 to 255, otherwise the byte in the cell (R7, R43). -/
def State.memRead (s : State) (a : Nat) : Attempt Byte :=
  if a < Config.memSize then .ok (s.mem.get a) else .error .memoryAccessError

/-- `MemWrite(a, 1, v)`: MemoryAccessError outside 0 to 255, otherwise the cell becomes `v`, visible to every later read
and fetch (R7, R43, R49). -/
def State.memWrite (s : State) (a : Nat) (v : Byte) : Attempt State :=
  if a < Config.memSize then .ok { s with mem := s.mem.set a v } else .error .memoryAccessError

/-- The stack pointer's decrement: StackError when it is 0, with no wrap to 255 (R110, R156). -/
def State.decSp (s : State) : Attempt State :=
  if s.reg .sp = 0 then .error .stackError else .ok (s.setReg .sp (s.reg .sp - 1))

/-- `emit Out(v)`: the output stream grows by one byte (R7, R24). -/
def State.emitOut (s : State) (v : Byte) : State := { s with out := s.out ++ [v] }

/-- `emit Unknown(pc, o)`: the event stream grows by one record. The address is the program counter of a cycle whose
opcode fetch succeeded, so it is at most 255 and fits the 8-bit port (R7, R11, R25). -/
def State.emitUnknown (s : State) (o : Byte) : State :=
  { s with unk := s.unk ++ [{ addr := s.pc.setWidth 8, opcode := o }] }

/-- `state <- HALTED` (R7, R21). -/
def State.halt (s : State) : State := { s with state := .halted }

/-- Raising a fault from the state before the cycle: nothing the cycle wrote is committed, the fault record is written
and the state becomes FAULTED; the program counter keeps the address of the failing opcode byte (R157). Without a fetched
opcode only the valid bit is written, as 0, and `fault_opcode` keeps its value, which in a run is 0 (R30). No value is
drawn (R165). -/
def State.raise (s : State) (k : ErrorKind) (opcode : Option Byte) : State :=
  { s with
    state := .faulted
    fault := { kind := k, pc := s.pc, opcodeValid := opcode.isSome, opcode := opcode.getD s.fault.opcode } }

/-- The end of the execute phase of a known opcode: the Operation's result, or the fault it raised, taken from the state
the cycle began in (R7, R157). -/
def State.complete (s : State) (op : Op) : Attempt State → StepOutcome
  | .ok t => .next t
  | .error k => .next (s.raise k (some op.byte))

/-- The fault a rejected decode raises (R82, R83, R155 places 1 to 3). -/
def State.raiseDecode (s : State) : DecodeError → State
  | .opcodeMissing => s.raise .memoryAccessError none
  | .operandMissing b => s.raise .memoryAccessError (some b)
  | .registerIndex b => s.raise .registerIndexError (some b)

/-- The note that a cycle executes, which `load` looks at (R181, R182). -/
def State.beginCycle (s : State) : State := { s with ran := true }

end Sys2Proof.Machine
end

