-- ==== Sys2Proof/Machine/Alu.lean ====
section
/-! DEFINITION. ADD, MUL, CMP (spec 44_alu.md R131 to R133). -/

namespace Sys2Proof.Machine

/-- ADD (R131): the sum is computed and discarded. -/
def execAdd (a b : Reg) (s : State) : StepOutcome :=
  .next ((s.latchAlu (alu .add (s.reg a) (s.reg b))).selectPc .inc3)

/-- MUL (R132): the product is computed and discarded. -/
def execMul (a b : Reg) (s : State) : StepOutcome :=
  .next ((s.latchAlu (alu .mul (s.reg a) (s.reg b))).selectPc .inc3)

/-- CMP (R133): all of the flag register is written. -/
def execCmp (a b : Reg) (s : State) : StepOutcome :=
  .next ((s.latchAlu (alu .cmp (s.reg a) (s.reg b))).selectPc .inc3)

end Sys2Proof.Machine
end

