-- ==== Sys2Proof/Machine/Branch.lean ====
section
/-! DEFINITION. JMP, JEQ, JNE (spec 45_branch.md R141 to R143). -/

namespace Sys2Proof.Machine

/-- JMP (R141). -/
def execJmp (r : Reg) (s : State) : StepOutcome := .next (s.selectPc (.reg (s.reg r)))

/-- JEQ (R142): the EQUAL bit alone decides. -/
def execJeq (r : Reg) (s : State) : StepOutcome :=
  .next (s.selectPc (if s.flagE then .reg (s.reg r) else .inc2))

/-- JNE (R143): the complement of JEQ on the same flags. -/
def execJne (r : Reg) (s : State) : StepOutcome :=
  .next (s.selectPc (if s.flagE then .inc2 else .reg (s.reg r)))

end Sys2Proof.Machine
end

