-- ==== Sys2Proof/Machine/Control.lean ====
section
/-! DEFINITION. The zero byte and the unknown byte (spec 40_fetch_decode_execute.md R85, R86). -/

namespace Sys2Proof.Machine

/-- NOP (R85). -/
def execNop (s : State) : StepOutcome := .next (s.selectPc .inc1)

/-- Skip of an unknown opcode byte (R86): the event, then one byte on. -/
def execSkip (o : Byte) (s : State) : StepOutcome := .next ((s.emitUnknown o).selectPc .inc1)

end Sys2Proof.Machine
end

