-- ==== Sys2Proof/Machine/DataMovement.lean ====
section
/-! DEFINITION. LDI, PRN, HLT (spec 41_data_movement.md R100 to R102). -/

namespace Sys2Proof.Machine

/-- LDI (R100). -/
def execLdi (r : Reg) (v : Byte) (s : State) : StepOutcome := .next ((s.setReg r v).selectPc .inc3)

/-- PRN (R101). -/
def execPrn (r : Reg) (s : State) : StepOutcome := .next ((s.emitOut (s.reg r)).selectPc .inc2)

/-- HLT (R102): the program counter stays at the HLT byte. -/
def execHlt (s : State) : StepOutcome := .next (s.halt.selectPc .hold)

end Sys2Proof.Machine
end

