-- ==== Sys2Proof/Machine/Stack.lean ====
section
/-! DEFINITION. PUSH and POP, which both move the stack pointer down (spec 42_stack.md R110 to R112). -/

namespace Sys2Proof.Machine

/-- PUSH (R111): the decrement first, then the store at the new stack pointer of the register as it stands then. -/
def execPush (r : Reg) (s : State) : StepOutcome :=
  s.complete .push do
    let s1 ← s.decSp
    let s2 ← s1.memWrite (s1.reg .sp).toNat (s1.reg r)
    return s2.selectPc .inc2

/-- POP (R112): the read at the stack pointer, then the register, then the decrement of the stack pointer as it stands
then. -/
def execPop (r : Reg) (s : State) : StepOutcome :=
  s.complete .pop do
    let v ← s.memRead (s.reg .sp).toNat
    let s1 ← (s.setReg r v).decSp
    return s1.selectPc .inc2

end Sys2Proof.Machine
end

