-- ==== Sys2Proof/Machine/Subroutine.lean ====
section
/-! DEFINITION. CALL and RET (spec 43_call_return.md R120 to R122). -/

namespace Sys2Proof.Machine

/-- The return address of CALL, on unbounded numbers (R6, R121). -/
def State.returnAddress (s : State) : Nat := s.pc.toNat + 2

/-- CALL (R121): the decrement, the range check of the return address, the store, and the jump to the register as it
stands after the decrement. -/
def execCall (r : Reg) (s : State) : StepOutcome :=
  s.complete .call do
    let s1 ← s.decSp
    if Config.memSize ≤ s.returnAddress then
      Except.error ErrorKind.memoryAccessError
    else do
      let s2 ← s1.memWrite (s1.reg .sp).toNat (BitVec.ofNat 8 s.returnAddress)
      return s2.selectPc (.reg (s2.reg r))

/-- RET (R122): the program counter from the stack pointer's cell; the stack pointer is not changed. -/
def execRet (s : State) : StepOutcome :=
  s.complete .ret do
    let t ← s.memRead (s.reg .sp).toNat
    return s.selectPc (.mem t)

end Sys2Proof.Machine
end

