-- ==== Sys2Proof/Machine/Step.lean ====
section
/-! DEFINITION. The step of the machine: one cycle of fetch, decode, execute (spec 40_fetch_decode_execute.md R80). -/

namespace Sys2Proof.Machine

/-- One cycle, defined only while the state is RUNNING (R80, R89). A rejected decode is a fault the cycle takes (R157), so
that every RUNNING state has exactly one next state (R80, R165). -/
def step (s : State) : Host.Outcome State Fault Refusal :=
  match s.state with
  | .halted => .fault .halted
  | .faulted => .fault .faulted
  | .running =>
    match s.fetchDecode with
    | .ok i => exec i s.beginCycle
    | .error e => .next (s.beginCycle.raiseDecode e)

/-- The state with a table word's instruction where the next cycle fetches it: its three bytes in the cells from the
program counter up, in a RUNNING state (log entry 4). It stands for a load from outside and changes nothing else; at a
program counter above 253 the bytes that would lie past cell 255 have no place and are dropped. -/
def State.withFetchWord (s : State) (nbits w : Nat) : State :=
  { s with state := .running, mem := s.mem.setBytes s.pc.toNat (tableBytes nbits w) }

end Sys2Proof.Machine
end

