-- ==== Sys2Proof/Machine/HostOps.lean ====
section
/-! DEFINITION. What the host does to the block: reset, load, run (spec 70_reset_and_hazards.md R180 to R190). -/

namespace Sys2Proof.Machine

/-- The input `reset`, at any time: every piece of state of the spec at its reset value (R30, R180). The index of the
next free value is not the machine's and goes on, so that draws before and after a reset are different ones. -/
def State.resetInput (s : State) : State := { State.reset with freeIx := s.freeIx }

/-- The memory after a successful load: zeroed, then the image from address 0 in order (R181). -/
def Memory.ofImage (image : List Byte) : Memory := Memory.setBytes [] Config.loadBase image

/-- A memory with nothing known of it: `n` cells from `a` up, each a free value (log entry 3). -/
def Memory.free (freeIx : Nat) : Nat → Nat → Memory → Memory
  | 0, _, m => m
  | n + 1, a, m => Memory.free freeIx n (a + 1) (Memory.set m a (Config.freeByte (freeIx + a)))

/-- What a failed load leaves in the array: all of its cells free values (R152: "not to be relied on"; log entry 3). -/
@[irreducible] def Memory.unspecified (freeIx : Nat) : Memory := Memory.free freeIx Config.memSize 0 []

/-- LoadError: the kind alone is recorded and the state becomes FAULTED. No register has been touched, and what memory
holds afterwards is not specified (R151, R152, R181). -/
def State.loadError (s : State) : State :=
  { s with
    state := .faulted
    fault := { s.fault with kind := .loadError }
    mem := Memory.unspecified s.freeIx
    freeIx := s.freeIx + Config.memSize }

/-- `load(image)`: RUNNING and no cycle since reset, then the length check, then memory and the stack pointer and nothing
else (R181, R182). -/
def hostLoad (image : List Byte) (s : State) : StepOutcome :=
  match s.state with
  | .halted => .refused .loadWhileNotRunning
  | .faulted => .refused .loadWhileNotRunning
  | .running =>
    if s.ran then .refused .loadAfterCycle
    else if Config.memSize < image.length then .next s.loadError
    else .next { s.setReg .sp Config.spInit with mem := Memory.ofImage image }

/-- `run`, cut off after a number of cycles: cycles follow one another while the state is RUNNING, and in HALTED and
FAULTED none executes and the state stays (R89, R185). -/
def hostRun : Nat → State → State
  | 0, s => s
  | n + 1, s =>
    match step s with
    | .next t => hostRun n t
    | .fault _ => s
    | .refused _ => s

end Sys2Proof.Machine
end

