-- ==== Sys2Proof/Machine/Ports.lean ====
section
/-! DEFINITION. The ports of the block as views of the state and of a cycle, at the level of transactions (spec
10_state.md R11; 20_memory.md R41, R43, R48). No instruction reads them. -/

namespace Sys2Proof.Machine

/-- The code of an error kind on the port `fault_kind` (R151). -/
def ErrorKind.code : ErrorKind → BitVec 3
  | .none => 0
  | .loadError => 1
  | .unknownOpcode => 2
  | .stackError => 3
  | .memoryAccessError => 4
  | .unsupportedALUOperation => 5
  | .registerIndexError => 6

/-- The status and fault ports (R11). -/
structure StatusPorts where
  running : Bool
  halted : Bool
  faulted : Bool
  faultKind : BitVec 3
  faultPc : Pc
  faultOpcodeValid : Bool
  faultOpcode : Byte
deriving DecidableEq, Repr

/-- The status and fault ports of a state (R11, R22, R23). -/
def State.statusPorts (s : State) : StatusPorts where
  running := decide (s.state = .running)
  halted := decide (s.state = .halted)
  faulted := decide (s.state = .faulted)
  faultKind := s.fault.kind.code
  faultPc := s.fault.pc
  faultOpcodeValid := s.fault.opcodeValid
  faultOpcode := s.fault.opcode

/-- One transaction on the memory port: `mem_addr` with `mem_rdata`, or `mem_addr` with `mem_wdata` (R11). The address is
eight bits, since the range check is made before the port is driven. -/
inductive MemTransfer where
  | read (addr data : Byte)
  | write (addr data : Byte)
deriving DecidableEq, Repr

/-- A read of cell `a`, if there is such a cell; the port is not driven past cell 255 (R11, R43). -/
def State.readTransfer (s : State) (a : Nat) : List MemTransfer :=
  if a < Config.memSize then [.read (BitVec.ofNat 8 a) (s.mem.get a)] else []

/-- The reads of the operands of a known opcode, in ascending order; after one that fails there is no other (R48, R83). -/
def State.operandTransfers (s : State) : Nat → Nat → List MemTransfer
  | 0, _ => []
  | n + 1, a => if a < Config.memSize then s.readTransfer a ++ s.operandTransfers n (a + 1) else []

/-- The reads of the fetch and decode phases: the opcode, then the operands of a known opcode (R48, R81, R83). -/
def State.fetchTransfers (s : State) : List MemTransfer :=
  s.readTransfer s.pc.toNat ++
    match s.fetchBytes with
    | [] => []
    | b :: _ =>
      match Op.ofByte b with
      | some o => s.operandTransfers o.operands (s.pc.toNat + 1)
      | none => []

/-- The one data access of an instruction, if it has one: the store of PUSH or CALL at the decremented stack pointer,
the load of POP or RET at the stack pointer (R41, R48). -/
def State.dataTransfers (s : State) : Instr → List MemTransfer
  | .nop => []
  | .hlt => []
  | .ret => [.read (s.reg .sp) (s.byteAt (s.reg .sp).toNat)]
  | .push r =>
    if s.reg .sp = 0 then []
    else [.write (s.reg .sp - 1) ((s.setReg .sp (s.reg .sp - 1)).reg r)]
  | .pop _ => [.read (s.reg .sp) (s.byteAt (s.reg .sp).toNat)]
  | .prn _ => []
  | .call _ =>
    if s.reg .sp = 0 ∨ Config.memSize ≤ s.returnAddress then []
    else [.write (s.reg .sp - 1) (BitVec.ofNat 8 s.returnAddress)]
  | .jmp _ => []
  | .jeq _ => []
  | .jne _ => []
  | .ldi _ _ => []
  | .add _ _ => []
  | .mul _ _ => []
  | .cmp _ _ => []
  | .skip _ => []

/-- The transactions of the cycle a RUNNING state executes next, in their order (R48). -/
def State.cycleTransfers (s : State) : List MemTransfer :=
  s.fetchTransfers ++
    match s.fetchDecode with
    | .ok i => s.dataTransfers i
    | .error _ => []

/-- What the array holds after a transaction (R40). -/
def Memory.applyTransfer (m : Memory) : MemTransfer → Memory
  | .read _ _ => m
  | .write a v => Memory.set m a.toNat v

/-- One transaction on an output stream: `out_data`, or `unk_pc` with `unk_opcode` (R11). -/
inductive StreamTransfer where
  | out (data : Byte)
  | unknown (pc opcode : Byte)
deriving DecidableEq, Repr

/-- What an instruction emits: one byte for each PRN, one record for each skip, nothing else (R11, R24, R25). -/
def State.streamTransfer (s : State) : Instr → Option StreamTransfer
  | .nop => none
  | .hlt => none
  | .ret => none
  | .push _ => none
  | .pop _ => none
  | .prn r => some (.out (s.reg r))
  | .call _ => none
  | .jmp _ => none
  | .jeq _ => none
  | .jne _ => none
  | .ldi _ _ => none
  | .add _ _ => none
  | .mul _ _ => none
  | .cmp _ _ => none
  | .skip o => some (.unknown (s.pc.setWidth 8) o)

/-- What the cycle a RUNNING state executes next emits: at most one record (R80). -/
def State.cycleEmits (s : State) : Option StreamTransfer :=
  match s.fetchDecode with
  | .ok i => s.streamTransfer i
  | .error _ => none

end Sys2Proof.Machine
end

