-- ==== Sys2Proof/Safety.lean ====
section
/-! DEFINITION. The terms the claims use: what the spec promises of every state of a run, the three ways a run can go,
and the spec's tables of registers, opcode bytes and faults (spec 10_state.md R14; 30_encoding.md R64;
40_fetch_decode_execute.md R89, R90; 60_exceptions.md R155, R157, R164). -/

namespace Sys2Proof.Machine

/-- What holds of the machine after reset and load and in every state of a run. -/
structure RunInvariant (s : State) : Prop where
  /-- The memory is in its canonical form. -/
  memory_canonical : s.mem.wf = true
  /-- `pc` is 0 to 256 (R16). -/
  pc_range : s.pc.toNat ≤ 256
  /-- `fl` is one of 0x00, 0x01, 0x02, 0x04 (R20). -/
  flags_one_hot : s.flByte = 0x00 ∨ s.flByte = 0x01 ∨ s.flByte = 0x02 ∨ s.flByte = 0x04
  /-- The fault record has a kind exactly in FAULTED (R23, R161). -/
  latched_iff_faulted : s.fault.kind ≠ .none ↔ s.state = .faulted
  /-- UnknownOpcode is never latched (R159). -/
  unknown_never_latched : s.fault.kind ≠ .unknownOpcode
  /-- UnsupportedALUOperation is never raised (R154). -/
  unsupported_never_raised : s.fault.kind ≠ .unsupportedALUOperation
  /-- With no fault latched the record is clear (R23, R30). -/
  clear_when_none : s.fault.kind = .none → s.fault = FaultRecord.clear
  /-- After a fault of a cycle the record has the failing address, and `pc` keeps it (R157). -/
  fault_at_pc : s.state = .faulted → s.fault.kind ≠ .loadError → s.fault.pc = s.pc
  /-- A valid recorded opcode is the byte at the failing address (R23, R157). -/
  fault_opcode_fetched : s.fault.opcodeValid = true → s.pc.toNat ≤ 255 ∧ s.fault.opcode = s.byteAt s.pc.toNat
  /-- With no valid recorded opcode `fault_opcode` is the 0 of reset (R30, R157). -/
  fault_opcode_zero : s.fault.opcodeValid = false → s.fault.opcode = 0x00
  /-- In HALTED the program counter is at the HLT byte (R102). -/
  halted_at_hlt : s.state = .halted → s.pc.toNat ≤ 255 ∧ s.byteAt s.pc.toNat = Op.hlt.byte
  /-- Every recorded event is about an unknown opcode byte (R25, R86). -/
  events_unknown : ∀ e ∈ s.unk, Op.ofByte e.opcode = Option.none

/-- Outcome (a) of a run: it reaches HALTED (R90). -/
def Completes (s : State) : Prop := ∃ n, (hostRun n s).state = .halted

/-- Outcome (b) of a run: it reaches FAULTED (R90). -/
def Fails (s : State) : Prop := ∃ n, (hostRun n s).state = .faulted

/-- Outcome (c) of a run: it is infinite (R90). -/
def Diverges (s : State) : Prop := ∀ n, (hostRun n s).state = .running

/-- The fourteen opcode bytes of the table of R64, written out again from the spec. -/
def specOpcodeBytes : List Byte :=
  [0x00, 0x01, 0x11, 0x45, 0x46, 0x47, 0x50, 0x54, 0x55, 0x56, 0x82, 0xA0, 0xA2, 0xA7]

/-- How many operand bytes follow an opcode byte: the formats R and RI or RR of the table of R64, written out from the
spec; none for NOP, HLT, RET and every byte that is skipped. -/
def specOperandCount (b : Byte) : Nat :=
  if b ∈ ([0x45, 0x46, 0x47, 0x50, 0x54, 0x55, 0x56] : List Byte) then 1
  else if b ∈ ([0x82, 0xA0, 0xA2, 0xA7] : List Byte) then 2
  else 0

/-- The state a fault leaves, when the opcode byte had been fetched (R157): the state before, FAULTED, with the record
written. -/
def State.faultedBy (s : State) (k : ErrorKind) (opcode : Byte) : State :=
  { s with state := .faulted, fault := { kind := k, pc := s.pc, opcodeValid := true, opcode := opcode } }

/-- The decode faults of a format R instruction (R62, R83, and the "decode" entries of R164): its operand byte past the
end, then its index above 7. -/
def DecodeFaultsR (opcode : Byte) : Prop :=
  ∀ s : State, s.state = .running → s.pc.toNat ≤ 255 → s.byteAt s.pc.toNat = opcode →
    (s.pc.toNat = 255 → step s = .next (s.beginCycle.faultedBy .memoryAccessError opcode)) ∧
    (s.pc.toNat < 255 → 7 < (s.byteAt (s.pc.toNat + 1)).toNat →
      step s = .next (s.beginCycle.faultedBy .registerIndexError opcode))

/-- The decode faults of a format RI instruction (R62, R83, R164): only the first operand is an index. -/
def DecodeFaultsRI (opcode : Byte) : Prop :=
  ∀ s : State, s.state = .running → s.pc.toNat ≤ 255 → s.byteAt s.pc.toNat = opcode →
    (254 ≤ s.pc.toNat → step s = .next (s.beginCycle.faultedBy .memoryAccessError opcode)) ∧
    (s.pc.toNat < 254 → 7 < (s.byteAt (s.pc.toNat + 1)).toNat →
      step s = .next (s.beginCycle.faultedBy .registerIndexError opcode))

/-- The decode faults of a format RR instruction (R62, R83, R164): both operands are indices. -/
def DecodeFaultsRR (opcode : Byte) : Prop :=
  ∀ s : State, s.state = .running → s.pc.toNat ≤ 255 → s.byteAt s.pc.toNat = opcode →
    (254 ≤ s.pc.toNat → step s = .next (s.beginCycle.faultedBy .memoryAccessError opcode)) ∧
    (s.pc.toNat < 254 →
      7 < (s.byteAt (s.pc.toNat + 1)).toNat ∨ 7 < (s.byteAt (s.pc.toNat + 2)).toNat →
      step s = .next (s.beginCycle.faultedBy .registerIndexError opcode))

/-- The fault the cycle of a RUNNING state raises, if any, read off the table of R164 with the order of R155. -/
def expectedFault (s : State) : Option ErrorKind :=
  let pc := s.pc.toNat
  let a := (s.byteAt (pc + 1)).toNat
  let b := (s.byteAt (pc + 2)).toNat
  let sp := s.reg .sp
  let oneRegister (rest : Option ErrorKind) : Option ErrorKind :=
    if pc = 255 then some .memoryAccessError else if 7 < a then some .registerIndexError else rest
  if 255 < pc then some .memoryAccessError
  else
    match Op.ofByte (s.byteAt pc) with
    | none => none
    | some .nop => none
    | some .hlt => none
    | some .ret => none
    | some .prn => oneRegister none
    | some .jmp => oneRegister none
    | some .jeq => oneRegister none
    | some .jne => oneRegister none
    | some .push => oneRegister (if sp = 0 then some .stackError else none)
    | some .pop => oneRegister (if (if a = 7 then s.byteAt sp.toNat else sp) = 0 then some .stackError else none)
    | some .call =>
      oneRegister (if sp = 0 then some .stackError else if pc = 254 then some .memoryAccessError else none)
    | some .ldi =>
      if 254 ≤ pc then some .memoryAccessError else if 7 < a then some .registerIndexError else none
    | some .add =>
      if 254 ≤ pc then some .memoryAccessError else if 7 < a ∨ 7 < b then some .registerIndexError else none
    | some .mul =>
      if 254 ≤ pc then some .memoryAccessError else if 7 < a ∨ 7 < b then some .registerIndexError else none
    | some .cmp =>
      if 254 ≤ pc then some .memoryAccessError else if 7 < a ∨ 7 < b then some .registerIndexError else none

/-- The "reads" column of R14 (a conditional jump reads its register when it jumps). -/
def readsReg : Instr → Reg → Bool
  | .nop, _ => false
  | .hlt, _ => false
  | .ret, q => q == .sp
  | .push r, q => q == .sp || q == r
  | .pop _, q => q == .sp
  | .prn r, q => q == r
  | .call r, q => q == .sp || q == r
  | .jmp r, q => q == r
  | .jeq r, q => q == r
  | .jne r, q => q == r
  | .ldi _ _, _ => false
  | .add a b, q => q == a || q == b
  | .mul a b, q => q == a || q == b
  | .cmp a b, q => q == a || q == b
  | .skip _, _ => false

/-- The "writes" column of R14. -/
def writesReg : Instr → Reg → Bool
  | .nop, _ => false
  | .hlt, _ => false
  | .ret, _ => false
  | .push _, q => q == .sp
  | .pop r, q => q == .sp || q == r
  | .prn _, _ => false
  | .call _, q => q == .sp
  | .jmp _, _ => false
  | .jeq _, _ => false
  | .jne _, _ => false
  | .ldi r _, q => q == r
  | .add _ _, _ => false
  | .mul _ _, _ => false
  | .cmp _ _, _ => false
  | .skip _, _ => false

end Sys2Proof.Machine
end

