-- ==== Sys2Proof/WellFormed.lean ====
section
/-! DEFINITION. Which terms of Instr are instructions of the machine (spec 30_encoding.md R64, R67). -/

namespace Sys2Proof

/-- The one check the types do not make: a skip carries an unknown opcode byte, one that is neither 0x00 nor one of the
thirteen known values (R67). Register operands are 0 to 7 by their type and every immediate byte is legal (R62, R63). -/
def Instr.wellFormed : Instr → Bool
  | .nop => true
  | .hlt => true
  | .ret => true
  | .push _ => true
  | .pop _ => true
  | .prn _ => true
  | .call _ => true
  | .jmp _ => true
  | .jeq _ => true
  | .jne _ => true
  | .ldi _ _ => true
  | .add _ _ => true
  | .mul _ _ => true
  | .cmp _ _ => true
  | .skip o => (Op.ofByte o).isNone

end Sys2Proof
end

