-- ==== Sys2Proof/Certificates/Slice0/Obligations.lean ====
section
/-! DEFINITION. The statements for the provers. Each docstring names the rule of the spec it formalises. The state that
a rule's Operation leaves is written out as a record update, so that what a statement does not name is unchanged. -/

open Sys2Proof Sys2Proof.Machine

/-! Encoding. -/

/-- R60 to R64, R67: decoding the bytes of a well-formed instruction gives it back, whatever bytes follow. -/
def Obligations.DecodeOfEncodeIsTheInstruction : Prop :=
  ∀ (i : Instr) (rest : List Byte), i.wellFormed = true → decode (encode i ++ rest) = .ok (i, rest)

/-- R60 to R64, R67: whatever bytes decode to an instruction are its encoding and what follows it, and the instruction is
well formed. -/
def Obligations.DecodedBytesAreTheEncoding : Prop :=
  ∀ (bytes rest : List Byte) (i : Instr), decode bytes = .ok (i, rest) →
    bytes = encode i ++ rest ∧ i.wellFormed = true

/-- R64, R69: one word of each row, written out from the spec's tables, decodes to its instruction. -/
def Obligations.SpecWordsDecode : Prop :=
  decode [0b00000000] = .ok (.nop, []) ∧
  decode [0b00000001] = .ok (.hlt, []) ∧
  decode [0b00010001] = .ok (.ret, []) ∧
  decode [0b01000101, 0b00000001] = .ok (.push .r1, []) ∧
  decode [0b01000110, 0b00000010] = .ok (.pop .r2, []) ∧
  decode [0b01000111, 0b00000011] = .ok (.prn .r3, []) ∧
  decode [0b01010000, 0b00000100] = .ok (.call .r4, []) ∧
  decode [0b01010100, 0b00000101] = .ok (.jmp .r5, []) ∧
  decode [0b01010101, 0b00000110] = .ok (.jeq .r6, []) ∧
  decode [0b01010110, 0b00000111] = .ok (.jne .r7, []) ∧
  decode [0b10000010, 0b00000011, 0b11001010] = .ok (.ldi .r3 0xCA, []) ∧
  decode [0b10100000, 0b00000001, 0b00000010] = .ok (.add .r1 .r2, []) ∧
  decode [0b10100010, 0b00000011, 0b00000100] = .ok (.mul .r3 .r4, []) ∧
  decode [0b10100111, 0b00000101, 0b00000110] = .ok (.cmp .r5 .r6, []) ∧
  decode [0b11111111] = .ok (.skip 0xFF, [])

/-- R64, R67: a byte is skipped exactly when it is none of the fourteen of the table, and those are 242 bytes. -/
def Obligations.UnlistedBytesAreSkipped : Prop :=
  (∀ (b : Byte) (rest : List Byte), decode (b :: rest) = .ok (.skip b, rest) ↔ b ∉ specOpcodeBytes) ∧
  ((List.range 256).filter fun n => decide (BitVec.ofNat 8 n ∉ specOpcodeBytes)).length = 242

/-! The cycle. -/

/-- R80, R84: when the bytes at the program counter decode to an instruction, the step is that instruction's execute
phase, at the state with the note that a cycle executes (the model's own field, log entry 2) and nothing else around
it. -/
def Obligations.StepRunsDecodedInstruction : Prop :=
  ∀ (s : State) (i : Instr) (rest : List Byte), s.state = .running →
    decode s.fetchBytes = .ok (i, rest) → step s = exec i { s with ran := true }

/-- R80, R81, R83: the same from memory: when the cells from the program counter up hold the bytes of a well-formed
instruction, none of them past cell 255, the step runs it. -/
def Obligations.StepRunsEncodedInstruction : Prop :=
  ∀ (s : State) (i : Instr), i.wellFormed = true → s.state = .running →
    (∀ (k : Nat) (h : k < (encode i).length),
      s.pc.toNat + k ≤ 255 ∧ s.byteAt (s.pc.toNat + k) = (encode i)[k]) →
    step s = exec i { s with ran := true }

/-- The model's interface (log entry 4): a table word's instruction, placed where the next cycle fetches it, runs. -/
def Obligations.FetchWordRuns : Prop :=
  ∀ (s : State) (nbits w : Nat) (i : Instr), s.mem.wf = true → s.pc.toNat ≤ 253 →
    decodeTableWord nbits w = some i →
    step (s.withFetchWord nbits w) = exec i { s.withFetchWord nbits w with ran := true }

/-- R82: with the program counter at 256 the opcode fetch raises MemoryAccessError, with that address and no opcode, and
the program counter does not wrap. The opcode byte of the record keeps its value (R157 (b) writes the valid bit alone). -/
def Obligations.OpcodeFetchAt256Faults : Prop :=
  ∀ s : State, s.state = .running → s.pc = 256 → step s = .next
    { s with
      state := .faulted
      fault := { s.fault with kind := .memoryAccessError, pc := 256, opcodeValid := false }
      ran := true }

/-- R62, R83, R155: the decode phase of every known opcode: all operand bytes are fetched first, then every index is
checked, and either failure is a fault of the cycle. -/
def Obligations.DecodePhaseFaults : Prop :=
  ∀ (s : State) (o : Op), s.state = .running → s.pc.toNat ≤ 255 → s.byteAt s.pc.toNat = o.byte →
    (255 < s.pc.toNat + o.operands →
      step s = .next (s.beginCycle.faultedBy .memoryAccessError o.byte)) ∧
    (s.pc.toNat + o.operands ≤ 255 →
      (1 ≤ o.operands ∧ 7 < (s.byteAt (s.pc.toNat + 1)).toNat) ∨
      ((o = .add ∨ o = .mul ∨ o = .cmp) ∧ 7 < (s.byteAt (s.pc.toNat + 2)).toNat) →
      step s = .next (s.beginCycle.faultedBy .registerIndexError o.byte))

/-- R164, R155: the step of every RUNNING state raises exactly the fault the table gives, the first one met in the order
of R155, and where the table gives none the cycle does not fault and the record stays. -/
def Obligations.StepFaultsAsTheTableSays : Prop :=
  ∀ s : State, s.state = .running → ∃ t, step s = .next t ∧
    match expectedFault s with
    | none => t.state ≠ .faulted ∧ t.fault = s.fault
    | some k => t.state = .faulted ∧ t.fault.kind = k

/-- R157: a cycle that faults commits nothing, keeps the program counter, and records its kind, its address and, if it
was fetched, its opcode byte; if it was not, the record's opcode byte keeps its value. -/
def Obligations.FaultCommitsNothing : Prop :=
  ∀ s t : State, s.state = .running → step s = .next t → t.state = .faulted →
    t.x = s.x ∧ t.fl = s.fl ∧ t.mem = s.mem ∧ t.out = s.out ∧ t.unk = s.unk ∧ t.pc = s.pc ∧
    t.fault.kind ≠ .none ∧ t.fault.pc = s.pc ∧
    (s.pc.toNat ≤ 255 → t.fault.opcodeValid = true ∧ t.fault.opcode = s.byteAt s.pc.toNat) ∧
    (255 < s.pc.toNat → t.fault.opcodeValid = false ∧ t.fault.opcode = s.fault.opcode)

/-- R89: in HALTED and in FAULTED no cycle executes, and a run changes nothing. That the step stops there, under the
name of the state, is the model's form of it (log entry 1). -/
def Obligations.NoCycleUnlessRunning : Prop :=
  (∀ s : State, s.state = .halted → step s = .fault .halted) ∧
  (∀ s : State, s.state = .faulted → step s = .fault .faulted) ∧
  (∀ (s : State) (n : Nat), s.state ≠ .running → hostRun n s = s)

/-- R80, R165: a RUNNING state has a next state, and the cycle emits at most one record. -/
def Obligations.RunningStateHasASuccessor : Prop :=
  ∀ s : State, s.state = .running → ∃ t, step s = .next t ∧
    ((t.out = s.out ∧ t.unk = s.unk) ∨
     (∃ v, t.out = s.out ++ [v] ∧ t.unk = s.unk) ∨
     (∃ u, t.out = s.out ∧ t.unk = s.unk ++ [u]))

/-- R165: a cycle draws no value. The two fields of the model's own (`freeIx`, log entry 3; `ran`, log entry 2) have no
influence on the step of a RUNNING state, and the index of the free values is carried along. -/
def Obligations.StepDrawsNoValue : Prop :=
  ∀ (s : State) (ix : Nat) (b : Bool), s.state = .running →
    ∃ t, step s = .next t ∧ step { s with freeIx := ix, ran := b } = .next { t with freeIx := ix }

/-! The instructions: encoding, decode faults, Operation and execute faults of each rule. -/

/-- R85. -/
def Obligations.NopRule : Prop :=
  (∀ rest, decode (0x00 :: rest) = .ok (.nop, rest)) ∧
  (∀ s : State, exec .nop s = .next { s with pc := s.pc + 1 }) ∧
  (∀ s : State, s.pc.toNat ≤ 255 → (s.pc + 1).toNat = s.pc.toNat + 1)

/-- R86. -/
def Obligations.SkipRule : Prop :=
  (∀ (o : Byte) rest, o ∉ specOpcodeBytes → decode (o :: rest) = .ok (.skip o, rest)) ∧
  (∀ (o : Byte) (s : State),
    exec (.skip o) s = .next { s with unk := s.unk ++ [{ addr := s.pc.setWidth 8, opcode := o }], pc := s.pc + 1 }) ∧
  (∀ s : State, s.pc.toNat ≤ 255 → (s.pc.setWidth 8 : Byte).toNat = s.pc.toNat)

/-- R100. -/
def Obligations.LdiRule : Prop :=
  (∀ (r : Reg) (v : Byte) rest, decode (0x82 :: r.byte :: v :: rest) = .ok (.ldi r v, rest)) ∧
  DecodeFaultsRI 0x82 ∧
  (∀ (r : Reg) (v : Byte) (s : State), exec (.ldi r v) s = .next { s with x := s.x.set r v, pc := s.pc + 3 })

/-- R101. -/
def Obligations.PrnRule : Prop :=
  (∀ (r : Reg) rest, decode (0x47 :: r.byte :: rest) = .ok (.prn r, rest)) ∧
  DecodeFaultsR 0x47 ∧
  (∀ (r : Reg) (s : State), exec (.prn r) s = .next { s with out := s.out ++ [s.reg r], pc := s.pc + 2 })

/-- R102: the program counter stays at the HLT byte, and after it no cycle executes. -/
def Obligations.HltRule : Prop :=
  (∀ rest, decode (0x01 :: rest) = .ok (.hlt, rest)) ∧
  (∀ s : State, exec .hlt s = .next { s with state := .halted }) ∧
  (∀ (s t : State) (n : Nat), exec .hlt s = .next t → hostRun n t = t)

/-- R102, 90_conflicts.md C3: of the instructions that are no jump, call or return, HLT alone leaves the program counter
unchanged when no fault is taken. -/
def Obligations.OnlyHltHoldsThePc : Prop :=
  ∀ (i : Instr) (s t : State), exec i s = .next t → t.state ≠ .faulted →
    (∀ r, i ≠ .jmp r ∧ i ≠ .jeq r ∧ i ≠ .jne r ∧ i ≠ .call r) → i ≠ .ret →
    (t.pc = s.pc ↔ i = .hlt)

/-- R111: the decrement, then the store at the new stack pointer of the register read after the decrement; StackError at
0 with nothing written. -/
def Obligations.PushRule : Prop :=
  (∀ (r : Reg) rest, decode (0x45 :: r.byte :: rest) = .ok (.push r, rest)) ∧
  DecodeFaultsR 0x45 ∧
  (∀ (r : Reg) (s : State), s.reg .sp ≠ 0 → exec (.push r) s = .next
    { s with
      x := s.x.set .r7 (s.reg .sp - 1)
      mem := s.mem.set (s.reg .sp - 1).toNat (if r = .r7 then s.reg .sp - 1 else s.reg r)
      pc := s.pc + 2 }) ∧
  (∀ (r : Reg) (s : State), s.reg .sp = 0 → exec (.push r) s = .next (s.faultedBy .stackError 0x45))

/-- R112: read, register, decrement, in this order: for R7 it is the loaded value that is tested and decremented. -/
def Obligations.PopRule : Prop :=
  (∀ (r : Reg) rest, decode (0x46 :: r.byte :: rest) = .ok (.pop r, rest)) ∧
  DecodeFaultsR 0x46 ∧
  (∀ (r : Reg) (s : State), r ≠ .r7 → s.reg .sp ≠ 0 → exec (.pop r) s = .next
    { s with x := (s.x.set r (s.byteAt (s.reg .sp).toNat)).set .r7 (s.reg .sp - 1), pc := s.pc + 2 }) ∧
  (∀ (r : Reg) (s : State), r ≠ .r7 → s.reg .sp = 0 →
    exec (.pop r) s = .next (s.faultedBy .stackError 0x46)) ∧
  (∀ s : State, s.byteAt (s.reg .sp).toNat ≠ 0 → exec (.pop .r7) s = .next
    { s with x := s.x.set .r7 (s.byteAt (s.reg .sp).toNat - 1), pc := s.pc + 2 }) ∧
  (∀ s : State, s.byteAt (s.reg .sp).toNat = 0 → exec (.pop .r7) s = .next (s.faultedBy .stackError 0x46))

/-- R121: the return address is two past the opcode byte, the target is read after the decrement; StackError first, then
MemoryAccessError for a return address above 255. -/
def Obligations.CallRule : Prop :=
  (∀ (r : Reg) rest, decode (0x50 :: r.byte :: rest) = .ok (.call r, rest)) ∧
  DecodeFaultsR 0x50 ∧
  (∀ (r : Reg) (s : State), s.reg .sp ≠ 0 → s.pc.toNat + 2 ≤ 255 → exec (.call r) s = .next
    { s with
      x := s.x.set .r7 (s.reg .sp - 1)
      mem := s.mem.set (s.reg .sp - 1).toNat (BitVec.ofNat 8 (s.pc.toNat + 2))
      pc := (if r = .r7 then s.reg .sp - 1 else s.reg r).setWidth 9 }) ∧
  (∀ (r : Reg) (s : State), s.reg .sp = 0 → exec (.call r) s = .next (s.faultedBy .stackError 0x50)) ∧
  (∀ (r : Reg) (s : State), s.reg .sp ≠ 0 → 255 < s.pc.toNat + 2 →
    exec (.call r) s = .next (s.faultedBy .memoryAccessError 0x50))

/-- R122: the program counter from the stack pointer's cell, a value 0 to 255; the stack pointer stays. -/
def Obligations.RetRule : Prop :=
  (∀ rest, decode (0x11 :: rest) = .ok (.ret, rest)) ∧
  (∀ s : State, exec .ret s = .next { s with pc := (s.byteAt (s.reg .sp).toNat).setWidth 9 }) ∧
  (∀ s : State, ((s.byteAt (s.reg .sp).toNat).setWidth 9 : Pc).toNat = (s.byteAt (s.reg .sp).toNat).toNat)

/-- R131, R132: ADD and MUL change nothing but the program counter. -/
def Obligations.AddMulRules : Prop :=
  (∀ (a b : Reg) rest, decode (0xA0 :: a.byte :: b.byte :: rest) = .ok (.add a b, rest)) ∧
  (∀ (a b : Reg) rest, decode (0xA2 :: a.byte :: b.byte :: rest) = .ok (.mul a b, rest)) ∧
  DecodeFaultsRR 0xA0 ∧ DecodeFaultsRR 0xA2 ∧
  (∀ (a b : Reg) (s : State), exec (.add a b) s = .next { s with pc := s.pc + 3 }) ∧
  (∀ (a b : Reg) (s : State), exec (.mul a b) s = .next { s with pc := s.pc + 3 })

/-- R133: all of the byte `fl` is written, by the unsigned comparison. -/
def Obligations.CmpRule : Prop :=
  (∀ (a b : Reg) rest, decode (0xA7 :: a.byte :: b.byte :: rest) = .ok (.cmp a b, rest)) ∧
  DecodeFaultsRR 0xA7 ∧
  (∀ (a b : Reg) (s : State), ∃ f : BitVec 3,
    exec (.cmp a b) s = .next { s with fl := f, pc := s.pc + 3 } ∧
    ({ s with fl := f } : State).flByte =
      (if s.reg a = s.reg b then 0b00000001
       else if (s.reg b).toNat < (s.reg a).toNat then 0b00000010 else 0b00000100))

/-- R141: absolute, indirect, nothing added to the target. -/
def Obligations.JmpRule : Prop :=
  (∀ (r : Reg) rest, decode (0x54 :: r.byte :: rest) = .ok (.jmp r, rest)) ∧
  DecodeFaultsR 0x54 ∧
  (∀ (r : Reg) (s : State), exec (.jmp r) s = .next { s with pc := (s.reg r).setWidth 9 })

/-- R142: taken exactly when the EQUAL bit is 1; the decode faults do not depend on that. -/
def Obligations.JeqRule : Prop :=
  (∀ (r : Reg) rest, decode (0x55 :: r.byte :: rest) = .ok (.jeq r, rest)) ∧
  DecodeFaultsR 0x55 ∧
  (∀ (r : Reg) (s : State), s.flByte.getLsbD 0 = true →
    exec (.jeq r) s = .next { s with pc := (s.reg r).setWidth 9 }) ∧
  (∀ (r : Reg) (s : State), s.flByte.getLsbD 0 = false → exec (.jeq r) s = .next { s with pc := s.pc + 2 })

/-- R143: taken exactly when the EQUAL bit is 0; the decode faults do not depend on that. -/
def Obligations.JneRule : Prop :=
  (∀ (r : Reg) rest, decode (0x56 :: r.byte :: rest) = .ok (.jne r, rest)) ∧
  DecodeFaultsR 0x56 ∧
  (∀ (r : Reg) (s : State), s.flByte.getLsbD 0 = true → exec (.jne r) s = .next { s with pc := s.pc + 2 }) ∧
  (∀ (r : Reg) (s : State), s.flByte.getLsbD 0 = false →
    exec (.jne r) s = .next { s with pc := (s.reg r).setWidth 9 })

/-- R142, R143 (95_test_vectors.md section 4, property 6): on the same operand and flags exactly one of JEQ and JNE
takes the register and the other falls through. -/
def Obligations.JeqAndJneAreComplements : Prop :=
  ∀ (r : Reg) (s : State), ∃ p q : Pc,
    exec (.jeq r) s = .next { s with pc := p } ∧ exec (.jne r) s = .next { s with pc := q } ∧
    ((p = (s.reg r).setWidth 9 ∧ q = s.pc + 2) ∨ (p = s.pc + 2 ∧ q = (s.reg r).setWidth 9))

/-- R130, R134: the ALU keeps the low eight bits of sum and product, and drives the flags for CMP only; the select codes
are 0, 1, 2. -/
def Obligations.AluComputes : Prop :=
  (∀ a b : Byte, alu .add a b = { result := a + b, flags := none }) ∧
  (∀ a b : Byte, alu .mul a b = { result := a * b, flags := none }) ∧
  (∀ a b : Byte, alu .cmp a b =
    { result := 0, flags := some (if a < b then 0b100 else if b < a then 0b010 else 0b001) }) ∧
  AluOp.select .add = 0 ∧ AluOp.select .mul = 1 ∧ AluOp.select .cmp = 2

/-! Frames. -/

/-- R14, the "writes" column: an instruction changes no register but those the table names. -/
def Obligations.OnlyListedRegistersChange : Prop :=
  ∀ (i : Instr) (s t : State) (q : Reg), exec i s = .next t → writesReg i q = false → t.reg q = s.reg q

/-- R14, the "reads" column: a register the table names neither as read nor as written has no influence, and is carried
along. -/
def Obligations.UnlistedRegistersHaveNoInfluence : Prop :=
  ∀ (i : Instr) (s : State) (q : Reg) (v : Byte), readsReg i q = false → writesReg i q = false →
    ∃ t, exec i s = .next t ∧ exec i (s.setReg q v) = .next (t.setReg q v)

/-- R20: only CMP writes the flags; of the others only JEQ and JNE read them, and those read bit 0 alone. -/
def Obligations.FlagsWrittenByCmpReadByBranches : Prop :=
  (∀ (i : Instr) (s t : State), exec i s = .next t → (∀ a b, i ≠ .cmp a b) → t.fl = s.fl) ∧
  (∀ (a b : Reg) (s : State) (f : BitVec 3), exec (.cmp a b) { s with fl := f } = exec (.cmp a b) s) ∧
  (∀ (i : Instr) (s : State) (f : BitVec 3), (∀ a b, i ≠ .cmp a b) →
    (f.getLsbD 0 = s.fl.getLsbD 0 ∨ ((∀ r, i ≠ .jeq r) ∧ (∀ r, i ≠ .jne r))) →
    ∃ t, exec i s = .next t ∧ exec i { s with fl := f } = .next { t with fl := f })

/-- R41: an instruction other than PUSH and CALL changes no byte of memory; PUSH and CALL change no byte but the one at
the decremented stack pointer, and none when the decrement raises StackError. -/
def Obligations.OnlyTheStackStoreChangesMemory : Prop :=
  (∀ (i : Instr) (s t : State), exec i s = .next t → (∀ r, i ≠ .push r) → (∀ r, i ≠ .call r) →
    ∀ a, t.byteAt a = s.byteAt a) ∧
  (∀ (i : Instr) (r : Reg) (s t : State), i = .push r ∨ i = .call r → exec i s = .next t →
    (∀ (s1 : State) (addr : Nat), s.decSp = .ok s1 → addr = (s1.reg .sp).toNat →
      ∀ a, a ≠ addr → t.byteAt a = s.byteAt a) ∧
    (∀ k, s.decSp = .error k → ∀ a, t.byteAt a = s.byteAt a))

/-- R24, R25, R21, R23: only PRN adds to the output, only a skip adds to the events, only HLT and a fault change the
control state, and the fault record changes only with FAULTED. -/
def Obligations.StreamsAndControlChangeOnlyAsListed : Prop :=
  ∀ (i : Instr) (s t : State), exec i s = .next t →
    ((∀ r, i ≠ .prn r) → t.out = s.out) ∧
    ((∀ o, i ≠ .skip o) → t.unk = s.unk) ∧
    (t.state = s.state ∨ (i = .hlt ∧ t.state = .halted) ∨ t.state = .faulted) ∧
    (t.state ≠ .faulted → t.fault = s.fault) ∧
    t.ran = s.ran ∧ t.freeIx = s.freeIx

/-! Stores and loads through the stack. -/

/-- R40, R49, R111: the byte PUSH stores is what a fetch at that cell finds next. -/
def Obligations.PushedByteIsFetched : Prop :=
  ∀ (r : Reg) (s t u : State), s.mem.wf = true → s.reg .sp ≠ 0 → exec (.push r) s = .next t →
    u.mem = t.mem → u.pc = (s.reg .sp - 1).setWidth 9 →
    u.fetchBytes.head? = some (if r = .r7 then s.reg .sp - 1 else s.reg r)

/-- R120, R122, R194: after a CALL, whatever has run in between with the stack pointer and its cell as CALL left them, RET
goes to the instruction after the CALL and leaves the stack pointer one lower than before the CALL. -/
def Obligations.RetReturnsAfterCall : Prop :=
  ∀ (r : Reg) (s t u : State), s.mem.wf = true → s.reg .sp ≠ 0 → s.pc.toNat ≤ 253 → exec (.call r) s = .next t →
    u.reg .sp = t.reg .sp → u.byteAt (u.reg .sp).toNat = t.byteAt (t.reg .sp).toNat →
    ∃ v, exec .ret u = .next v ∧ v.pc = s.pc + 2 ∧ v.reg .sp = s.reg .sp - 1

/-- R193: PUSH a, PUSH b, POP c, POP d leaves the second value pushed in c and the cell below both pushes in d, and moves
the stack pointer down by four. -/
def Obligations.TwoPushesTwoPopsAreNotLifo : Prop :=
  ∀ (a b c d : Reg) (s : State), s.mem.wf = true → 4 ≤ (s.reg .sp).toNat →
    a ≠ .r7 → b ≠ .r7 → c ≠ .r7 → d ≠ .r7 → c ≠ d →
    ∃ s1 s2 s3 t, exec (.push a) s = .next s1 ∧ exec (.push b) s1 = .next s2 ∧
      exec (.pop c) s2 = .next s3 ∧ exec (.pop d) s3 = .next t ∧
      t.reg c = s.reg b ∧ t.reg d = s.byteAt ((s.reg .sp).toNat - 3) ∧
      (t.reg .sp).toNat = (s.reg .sp).toNat - 4 ∧ t.byteAt ((s.reg .sp).toNat - 1) = s.reg a

/-- R110 (95_test_vectors.md section 4, property 4): apart from LDI and POP with R7 as their register, an instruction
leaves the stack pointer or moves it down by one. -/
def Obligations.StackPointerOnlyMovesDown : Prop :=
  ∀ (i : Instr) (s t : State), exec i s = .next t → (∀ v, i ≠ .ldi .r7 v) → i ≠ .pop .r7 →
    t.reg .sp = s.reg .sp ∨ (t.reg .sp).toNat + 1 = (s.reg .sp).toNat

/-! Invariants. -/

/-- Every step keeps what the spec promises of the states of a run. -/
def Obligations.StepKeepsRunInvariant : Prop :=
  ∀ s t : State, RunInvariant s → step s = .next t → RunInvariant t

/-- The state after reset has it, the one built at the start and the one any state is reset to. -/
def Obligations.ResetHasRunInvariant : Prop :=
  RunInvariant State.reset ∧ ∀ s : State, RunInvariant s.resetInput

/-- A load keeps it, a failed one too. -/
def Obligations.LoadKeepsRunInvariant : Prop :=
  ∀ (image : List Byte) (s t : State), RunInvariant s → hostLoad image s = .next t → RunInvariant t

/-- R196: flags that a CMP has set stay set: a state whose flags are not zero has no successor with zero flags, and a CMP
never leaves zero. -/
def Obligations.FlagsNeverClearAgain : Prop :=
  (∀ (s t : State) (n : Nat), s.fl ≠ 0 → hostRun n s = t → t.fl ≠ 0) ∧
  (∀ (a b : Reg) (s t : State), exec (.cmp a b) s = .next t → t.fl ≠ 0)

/-! Reset, load, run. -/

/-- R180, R30: reset puts every piece of state at its reset value, from any state, and it is the only way out of HALTED
and FAULTED: neither cycles nor a load leave them. -/
def Obligations.ResetIsTheWayOut : Prop :=
  (∀ s : State,
    (∀ a, s.resetInput.byteAt a = 0x00) ∧ (∀ r, s.resetInput.reg r = 0x00) ∧ s.resetInput.pc = 0 ∧
    s.resetInput.flByte = 0x00 ∧ s.resetInput.state = .running ∧
    s.resetInput.fault = { kind := .none, pc := 0, opcodeValid := false, opcode := 0 } ∧
    s.resetInput.out = [] ∧ s.resetInput.unk = []) ∧
  (∀ (s : State) (n : Nat) (image : List Byte), s.state ≠ .running →
    hostRun n s = s ∧ hostLoad image s = .refused .loadWhileNotRunning)

/-- R181, R182: a load that is allowed zeroes memory, writes the image from 0 and 0xF4 into register 7, and nothing else;
after a cycle, or outside RUNNING, it has no meaning. -/
def Obligations.LoadWritesImageAndStackPointer : Prop :=
  ∀ (image : List Byte) (s : State),
    (s.state = .running → s.ran = false → image.length ≤ 256 → ∃ m : Memory,
      hostLoad image s = .next { s with x := s.x.set .r7 0xF4, mem := m } ∧
      (∀ (i : Nat) (h : i < image.length), m.get i = image[i]) ∧ (∀ i, image.length ≤ i → m.get i = 0x00)) ∧
    (s.state ≠ .running → hostLoad image s = .refused .loadWhileNotRunning) ∧
    (s.state = .running → s.ran = true → hostLoad image s = .refused .loadAfterCycle)

/-- R152, R181, R151: an image of more than 256 bytes is a LoadError: FAULTED with the kind alone recorded, no register
touched, and no cycle ever. What memory holds is left open. -/
def Obligations.LongImageIsALoadError : Prop :=
  ∀ (image : List Byte) (s : State), s.state = .running → s.ran = false → 256 < image.length →
    ∃ (m : Memory) (ix : Nat), hostLoad image s = .next
        { s with state := .faulted, fault := { s.fault with kind := .loadError }, mem := m, freeIx := ix } ∧
      ∀ t n, hostLoad image s = .next t → hostRun n t = t ∧ step t = .fault .faulted

/-- R182: a second load before any cycle leaves the state that it alone would leave. -/
def Obligations.SecondLoadLeavesNoStaleBytes : Prop :=
  ∀ (first second : List Byte) (s t : State), first.length ≤ 256 → second.length ≤ 256 →
    hostLoad first s = .next t → hostLoad second t = hostLoad second s

/-- R184: the launch state, field by field. -/
def Obligations.LaunchStateIsAsListed : Prop :=
  ∀ image : List Byte, image.length ≤ 256 → ∃ t, hostLoad image State.reset = .next t ∧
    (∀ (a : Nat) (h : a < image.length), t.byteAt a = image[a]) ∧
    (∀ a, image.length ≤ a → a ≤ 255 → t.byteAt a = 0x00) ∧
    (∀ r : Reg, r ≠ .r7 → t.reg r = 0x00) ∧ t.reg .r7 = 0xF4 ∧ t.pc = 0 ∧ t.flByte = 0x00 ∧
    t.state = .running ∧ t.fault = { kind := .none, pc := 0, opcodeValid := false, opcode := 0 } ∧
    t.out = [] ∧ t.unk = []

/-- R90: the run from a RUNNING state has exactly one of the three outcomes. -/
def Obligations.RunHasExactlyOneOutcome : Prop :=
  ∀ s : State, s.state = .running →
    (Completes s ∨ Fails s ∨ Diverges s) ∧
    ¬ (Completes s ∧ Fails s) ∧ ¬ (Completes s ∧ Diverges s) ∧ ¬ (Fails s ∧ Diverges s)

/-! Ports. -/

/-- R151: the codes of the kinds on the port; and of the states of a run, that the port is 0 exactly when nothing is
latched and is never 2 or 5. -/
def Obligations.FaultKindCodes : Prop :=
  ErrorKind.code .none = 0 ∧ ErrorKind.code .loadError = 1 ∧ ErrorKind.code .unknownOpcode = 2 ∧
  ErrorKind.code .stackError = 3 ∧ ErrorKind.code .memoryAccessError = 4 ∧
  ErrorKind.code .unsupportedALUOperation = 5 ∧ ErrorKind.code .registerIndexError = 6 ∧
  (∀ s : State, RunInvariant s →
    (s.statusPorts.faultKind = 0 ↔ s.statusPorts.faulted = false) ∧
    s.statusPorts.faultKind ≠ 2 ∧ s.statusPorts.faultKind ≠ 5)

/-- R11, R22: exactly one of the ports `running`, `halted`, `faulted` is 1, and a step is defined exactly when it is
`running`. -/
def Obligations.ExactlyOneStatusPort : Prop :=
  ∀ s : State,
    [s.statusPorts.running, s.statusPorts.halted, s.statusPorts.faulted].count true = 1 ∧
    (s.statusPorts.running = true ↔ ∃ t, step s = .next t)

/-- R41, R43, R48: the transactions of a cycle on the memory port account for all of the cycle's effect on memory. They
are the read of the opcode byte at the program counter, then of each operand byte the opcode has, at ascending addresses
and none of them past 255, then the one data access of an instruction that decoded: the store of PUSH or CALL at the
decremented stack pointer unless the Operation faults before it, the load of POP or RET at the stack pointer. -/
def Obligations.MemoryPortAccountsForTheCycle : Prop :=
  (∀ s t : State, s.state = .running → step s = .next t →
    t.mem = s.cycleTransfers.foldl Memory.applyTransfer s.mem) ∧
  (∀ s : State, s.pc.toNat ≤ 255 →
    s.fetchTransfers =
      (List.range (min (1 + specOperandCount (s.byteAt s.pc.toNat)) (256 - s.pc.toNat))).map fun k =>
        MemTransfer.read (BitVec.ofNat 8 (s.pc.toNat + k)) (s.byteAt (s.pc.toNat + k))) ∧
  (∀ s : State, 255 < s.pc.toNat → s.fetchTransfers = []) ∧
  (∀ (s : State) (i : Instr) (rest : List Byte), decode s.fetchBytes = .ok (i, rest) →
    s.cycleTransfers = s.fetchTransfers ++ s.dataTransfers i) ∧
  (∀ (s : State) (e : DecodeError), decode s.fetchBytes = .error e → s.cycleTransfers = s.fetchTransfers) ∧
  (∀ (r : Reg) (s : State), s.dataTransfers (.push r) =
    if s.reg .sp = 0 then []
    else [.write (s.reg .sp - 1) (if r = .r7 then s.reg .sp - 1 else s.reg r)]) ∧
  (∀ (r : Reg) (s : State), s.dataTransfers (.call r) =
    if s.reg .sp = 0 ∨ 255 < s.pc.toNat + 2 then []
    else [.write (s.reg .sp - 1) (BitVec.ofNat 8 (s.pc.toNat + 2))]) ∧
  (∀ (i : Instr) (s : State), (∃ r, i = .pop r) ∨ i = .ret →
    s.dataTransfers i = [.read (s.reg .sp) (s.byteAt (s.reg .sp).toNat)]) ∧
  (∀ (i : Instr) (s : State), (∀ r, i ≠ .push r ∧ i ≠ .call r ∧ i ≠ .pop r) → i ≠ .ret → s.dataTransfers i = [])

/-- R11, R24, R25: the transactions of a cycle on the stream ports are what the two streams grow by. -/
def Obligations.StreamPortsAccountForTheCycle : Prop :=
  ∀ s t : State, s.state = .running → step s = .next t →
    match s.cycleEmits with
    | none => t.out = s.out ∧ t.unk = s.unk
    | some (.out v) => t.out = s.out ++ [v] ∧ t.unk = s.unk
    | some (.unknown a o) => t.out = s.out ∧ t.unk = s.unk ++ [{ addr := a, opcode := o }] ∧ a.toNat = s.pc.toNat
end

