-- ==== Sys2Proof/Laws/Decode.lean ====
section
/-! SUPPORT. The lookups of the decoder and their bytes agree, both ways. -/

namespace Sys2Proof

@[simp] theorem Reg.ofByte_byte (r : Reg) : Reg.ofByte r.byte = some r := by cases r <;> decide

@[simp] theorem Op.ofByte_byte (o : Op) : Op.ofByte o.byte = some o := by cases o <;> decide

theorem Reg.byte_of_ofByte {b : Byte} {r : Reg} (h : Reg.ofByte b = some r) : r.byte = b :=
  eq_of_beq (List.find?_some (p := fun q : Reg => q.byte == b) h)

theorem Op.byte_of_ofByte {b : Byte} {o : Op} (h : Op.ofByte b = some o) : o.byte = b :=
  eq_of_beq (List.find?_some (p := fun q : Op => q.byte == b) h)

/-- A register operand byte is legal exactly when it is 0 to 7 (R62). -/
theorem Reg.ofByte_isSome_iff (b : Byte) : (Reg.ofByte b).isSome = true ↔ b.toNat ≤ 7 := by
  constructor
  · intro h
    obtain ⟨r, hr⟩ := Option.isSome_iff_exists.mp h
    rw [← Reg.byte_of_ofByte hr]
    cases r <;> decide
  · intro h
    obtain ⟨r, hr⟩ : ∃ r : Reg, r.byte = b := by
      have hb : b = BitVec.ofNat 8 b.toNat := by simp
      have key : ∀ n : Fin 8, ∃ r : Reg, r.byte = BitVec.ofNat 8 n.val := by
        intro n
        match n with
        | 0 => exact ⟨.r0, rfl⟩
        | 1 => exact ⟨.r1, rfl⟩
        | 2 => exact ⟨.r2, rfl⟩
        | 3 => exact ⟨.r3, rfl⟩
        | 4 => exact ⟨.r4, rfl⟩
        | 5 => exact ⟨.r5, rfl⟩
        | 6 => exact ⟨.r6, rfl⟩
        | 7 => exact ⟨.r7, rfl⟩
      rw [hb]
      exact key ⟨b.toNat, by omega⟩
    rw [← hr]
    simp

/-- An operand byte above 7 names no register (R62). -/
theorem Reg.ofByte_eq_none_iff (b : Byte) : Reg.ofByte b = none ↔ 7 < b.toNat := by
  have := Reg.ofByte_isSome_iff b
  cases h : Reg.ofByte b with
  | none => simp [h] at this; simp; omega
  | some r => simp [h] at this; simp; omega

/-- A byte is unknown exactly when it is no row's byte (R67). -/
theorem Op.ofByte_eq_none_iff (b : Byte) : Op.ofByte b = none ↔ ∀ o : Op, o.byte ≠ b := by
  constructor
  · intro h o ho
    rw [← ho] at h
    simp at h
  · intro h
    cases ho : Op.ofByte b with
    | none => rfl
    | some o => exact absurd (Op.byte_of_ofByte ho) (h o)

end Sys2Proof
end

