-- ==== Sys2Proof/Laws/Memory.lean ====
section
/-! SUPPORT. The laws of memory: read after write, nothing else changes, every operation keeps the canonical form, and
canonical memories that read the same are equal. -/

namespace Sys2Proof.Machine

theorem Memory.get_nil (a : Nat) : Memory.get [] a = Memory.unlisted := rfl

/-- Below the lowest listed address every cell reads as unlisted. -/
theorem Memory.get_below : ∀ (m : Memory) (lo a : Nat), Memory.wfFrom lo m = true → a < lo →
    Memory.get m a = Memory.unlisted
  | [], _, _, _, _ => rfl
  | (k, v) :: m, lo, a, h, ha => by
    simp only [Memory.wfFrom, Bool.and_eq_true, decide_eq_true_eq] at h
    obtain ⟨⟨⟨hlo, _⟩, _⟩, hm⟩ := h
    have hk : k ≠ a := by omega
    simp only [Memory.get, hk, if_false]
    exact Memory.get_below m (k + 1) a hm (by omega)

/-- A write leaves every other cell alone, whatever the memory. -/
theorem Memory.get_set_other : ∀ (m : Memory) (a b : Nat) (v : Byte), b ≠ a →
    Memory.get (Memory.set m a v) b = Memory.get m b
  | [], a, b, v, h => by
    have h' : a ≠ b := fun e => h e.symm
    by_cases hv : v = Memory.unlisted <;> simp [Memory.set, Memory.get, hv, h']
  | (k, w) :: m, a, b, v, h => by
    have h' : a ≠ b := fun e => h e.symm
    simp only [Memory.set]
    by_cases hk : a < k
    · by_cases hv : v = Memory.unlisted <;> simp [Memory.get, hk, hv, h']
    · by_cases he : a = k
      · subst he
        by_cases hv : v = Memory.unlisted <;> simp [Memory.get, hv, h']
      · simp only [hk, he, if_false, Memory.get]
        rw [Memory.get_set_other m a b v h]

/-- A read after a write to the same cell gives the value written. -/
theorem Memory.get_set_from : ∀ (m : Memory) (lo a : Nat) (v : Byte), Memory.wfFrom lo m = true →
    Memory.get (Memory.set m a v) a = v
  | [], _, a, v, _ => by
    by_cases hv : v = Memory.unlisted <;> simp [Memory.set, Memory.get, hv]
  | (k, w) :: m, lo, a, v, h => by
    simp only [Memory.wfFrom, Bool.and_eq_true, decide_eq_true_eq] at h
    obtain ⟨⟨⟨_, _⟩, _⟩, hm⟩ := h
    simp only [Memory.set]
    by_cases hk : a < k
    · by_cases hv : v = Memory.unlisted
      · have hne : k ≠ a := by omega
        simp only [hk, hv, if_true, Memory.get, hne, if_false]
        exact Memory.get_below m (k + 1) a hm (by omega)
      · simp [Memory.get, hk, hv]
    · by_cases he : a = k
      · subst he
        by_cases hv : v = Memory.unlisted
        · simp only [hk, hv, if_true, if_false]
          exact Memory.get_below m (a + 1) a hm (by omega)
        · simp [Memory.get, hv]
      · have hne : k ≠ a := fun e => he e.symm
        simp only [hk, he, if_false, Memory.get, hne]
        exact Memory.get_set_from m (k + 1) a v hm

theorem Memory.get_set_self {m : Memory} (h : m.wf = true) (a : Nat) (v : Byte) :
    Memory.get (Memory.set m a v) a = v := Memory.get_set_from m 0 a v h

theorem Memory.get_set {m : Memory} (h : m.wf = true) (a b : Nat) (v : Byte) :
    Memory.get (Memory.set m a v) b = if b = a then v else Memory.get m b := by
  by_cases hb : b = a
  · subst hb; simp [Memory.get_set_self h]
  · simp [hb, Memory.get_set_other m a b v hb]

/-- A lower bound may be lowered. -/
theorem Memory.wfFrom_mono : ∀ (m : Memory) (lo lo' : Nat), lo' ≤ lo → Memory.wfFrom lo m = true →
    Memory.wfFrom lo' m = true
  | [], _, _, _, _ => rfl
  | (k, v) :: m, lo, lo', hle, h => by
    simp only [Memory.wfFrom, Bool.and_eq_true, decide_eq_true_eq] at h ⊢
    obtain ⟨⟨⟨hlo, hlt⟩, hv⟩, hm⟩ := h
    exact ⟨⟨⟨by omega, hlt⟩, hv⟩, hm⟩

theorem Memory.wfFrom_set : ∀ (m : Memory) (lo a : Nat) (v : Byte), lo ≤ a → a < Config.memSize →
    Memory.wfFrom lo m = true → Memory.wfFrom lo (Memory.set m a v) = true
  | [], lo, a, v, hlo, ha, _ => by
    by_cases hv : v = Memory.unlisted
    · simp [Memory.set, hv, Memory.wfFrom]
    · simp only [Memory.set, hv, if_false, Memory.wfFrom, Bool.and_eq_true, decide_eq_true_eq, and_true]
      exact ⟨⟨hlo, ha⟩, hv⟩
  | (k, w) :: m, lo, a, v, hlo, ha, h => by
    have hfull := h
    simp only [Memory.wfFrom, Bool.and_eq_true, decide_eq_true_eq] at h
    obtain ⟨⟨⟨hk, hks⟩, hw⟩, hm⟩ := h
    simp only [Memory.set]
    by_cases hak : a < k
    · by_cases hv : v = Memory.unlisted
      · simp only [hak, hv, if_true]; exact hfull
      · simp only [hak, hv, if_true, if_false, Memory.wfFrom, Bool.and_eq_true, decide_eq_true_eq]
        exact ⟨⟨⟨hlo, ha⟩, hv⟩, ⟨⟨⟨hak, hks⟩, hw⟩, hm⟩⟩
    · by_cases he : a = k
      · subst he
        by_cases hv : v = Memory.unlisted
        · simp only [hak, hv, if_true, if_false]
          exact Memory.wfFrom_mono m (a + 1) lo (by omega) hm
        · simp only [hak, hv, if_true, if_false, Memory.wfFrom, Bool.and_eq_true, decide_eq_true_eq]
          exact ⟨⟨⟨hlo, ha⟩, hv⟩, hm⟩
      · simp only [hak, he, if_false, Memory.wfFrom, Bool.and_eq_true, decide_eq_true_eq]
        exact ⟨⟨⟨hk, hks⟩, hw⟩, Memory.wfFrom_set m (k + 1) a v (by omega) ha hm⟩

/-- A write to a cell of the array keeps the canonical form. -/
theorem Memory.wf_set {m : Memory} (h : m.wf = true) {a : Nat} (ha : a < Config.memSize) (v : Byte) :
    (Memory.set m a v).wf = true := Memory.wfFrom_set m 0 a v (Nat.zero_le a) ha h

theorem Memory.wf_nil : Memory.wf [] = true := rfl

/-- Writing bytes from an address upward keeps the canonical form, wherever they start. -/
theorem Memory.wf_setBytes : ∀ (bs : List Byte) (m : Memory) (a : Nat), m.wf = true →
    (Memory.setBytes m a bs).wf = true
  | [], _, _, h => h
  | b :: bs, m, a, h => by
    simp only [Memory.setBytes]
    apply Memory.wf_setBytes bs
    by_cases ha : a < Config.memSize
    · rw [if_pos ha]; exact Memory.wf_set h ha b
    · rw [if_neg ha]; exact h

/-- A loaded image is a canonical memory. -/
theorem Memory.wf_ofImage (image : List Byte) : (Memory.ofImage image).wf = true :=
  Memory.wf_setBytes image [] Config.loadBase Memory.wf_nil

/-- A memory of free values is canonical, whatever the values are. -/
theorem Memory.wf_free (f : Nat) : ∀ (n a : Nat) (m : Memory), a + n ≤ Config.memSize → m.wf = true →
    (Memory.free f n a m).wf = true
  | 0, _, _, _, h => h
  | n + 1, a, m, hle, h =>
    Memory.wf_free f n (a + 1) _ (by omega) (Memory.wf_set h (by omega) _)

/-- The memory a failed load leaves is canonical, whatever its free values are. -/
theorem Memory.wf_unspecified (f : Nat) : (Memory.unspecified f).wf = true := by
  unfold Memory.unspecified
  generalize hn : Config.memSize = n
  exact Memory.wf_free f n 0 [] (by omega) Memory.wf_nil

@[simp] theorem loadError_mem (s : State) : s.loadError.mem = Memory.unspecified s.freeIx := rfl

/-- Bytes written from `a` upward leave the cells below `a` alone. -/
theorem Memory.get_setBytes_below : ∀ (bs : List Byte) (m : Memory) (a b : Nat), b < a →
    Memory.get (Memory.setBytes m a bs) b = Memory.get m b
  | [], _, _, _, _ => rfl
  | v :: bs, m, a, b, h => by
    simp only [Memory.setBytes]
    rw [Memory.get_setBytes_below bs _ (a + 1) b (by omega)]
    by_cases ha : a < Config.memSize
    · rw [if_pos ha, Memory.get_set_other m a b v (by omega)]
    · rw [if_neg ha]

/-- Bytes written from `a` upward leave the cells above them alone. -/
theorem Memory.get_setBytes_above : ∀ (bs : List Byte) (m : Memory) (a b : Nat), a + bs.length ≤ b →
    Memory.get (Memory.setBytes m a bs) b = Memory.get m b
  | [], _, _, _, _ => rfl
  | v :: bs, m, a, b, h => by
    simp only [List.length_cons] at h
    simp only [Memory.setBytes]
    rw [Memory.get_setBytes_above bs _ (a + 1) b (by omega)]
    by_cases ha : a < Config.memSize
    · rw [if_pos ha, Memory.get_set_other m a b v (by omega)]
    · rw [if_neg ha]

/-- Bytes written from `a` upward are there to be read. -/
theorem Memory.get_setBytes_at : ∀ (bs : List Byte) (m : Memory) (a i : Nat) (hi : i < bs.length), m.wf = true →
    a + i < Config.memSize → Memory.get (Memory.setBytes m a bs) (a + i) = bs[i]
  | [], _, _, i, hi, _, _ => absurd hi (Nat.not_lt_zero i)
  | v :: bs, m, a, 0, _, hwf, ha => by
    have ha' : a < Config.memSize := by omega
    simp only [Memory.setBytes, Nat.add_zero, List.getElem_cons_zero]
    rw [Memory.get_setBytes_below bs _ (a + 1) a (by omega), if_pos ha', Memory.get_set_self hwf]
  | v :: bs, m, a, i + 1, hi, hwf, ha => by
    simp only [List.length_cons] at hi
    have ha' : a < Config.memSize := by omega
    have e : a + (i + 1) = (a + 1) + i := by omega
    simp only [Memory.setBytes, List.getElem_cons_succ]
    rw [e, if_pos ha']
    exact Memory.get_setBytes_at bs _ (a + 1) i (by omega) (Memory.wf_set hwf ha' v) (by omega)

/-- Canonical memories that read the same in every cell are the same list. -/
theorem Memory.ext_from : ∀ (m n : Memory) (lo : Nat), Memory.wfFrom lo m = true → Memory.wfFrom lo n = true →
    (∀ a, Memory.get m a = Memory.get n a) → m = n
  | [], [], _, _, _, _ => rfl
  | [], (k, v) :: n, _, _, hn, h => by
    simp only [Memory.wfFrom, Bool.and_eq_true, decide_eq_true_eq] at hn
    have := h k
    simp only [Memory.get, if_true] at this
    exact absurd this.symm hn.1.2
  | (k, v) :: m, [], _, hm, _, h => by
    simp only [Memory.wfFrom, Bool.and_eq_true, decide_eq_true_eq] at hm
    have := h k
    simp only [Memory.get, if_true] at this
    exact absurd this hm.1.2
  | (k, v) :: m, (l, w) :: n, lo, hm, hn, h => by
    simp only [Memory.wfFrom, Bool.and_eq_true, decide_eq_true_eq] at hm hn
    obtain ⟨⟨⟨_, _⟩, hv⟩, hm'⟩ := hm
    obtain ⟨⟨⟨_, _⟩, hw⟩, hn'⟩ := hn
    have hkl : k = l := by
      rcases Nat.lt_trichotomy k l with hlt | he | hgt
      · have hk := h k
        have hne : l ≠ k := by omega
        simp only [Memory.get, if_true, hne, if_false] at hk
        rw [Memory.get_below n (l + 1) k hn' (by omega)] at hk
        exact absurd hk hv
      · exact he
      · have hl := h l
        have hne : k ≠ l := by omega
        simp only [Memory.get, if_true, hne, if_false] at hl
        rw [Memory.get_below m (k + 1) l hm' (by omega)] at hl
        exact absurd hl.symm hw
    subst hkl
    have hvw : v = w := by simpa [Memory.get] using h k
    subst hvw
    have hrest : ∀ a, Memory.get m a = Memory.get n a := by
      intro a
      by_cases ha : k = a
      · subst ha
        rw [Memory.get_below m (k + 1) k hm' (by omega), Memory.get_below n (k + 1) k hn' (by omega)]
      · simpa [Memory.get, ha] using h a
    rw [Memory.ext_from m n (k + 1) hm' hn' hrest]

theorem Memory.ext {m n : Memory} (hm : m.wf = true) (hn : n.wf = true)
    (h : ∀ a, Memory.get m a = Memory.get n a) : m = n := Memory.ext_from m n 0 hm hn h

/-- The window of a decode holds as many bytes as there are cells, at most the number asked for. -/
theorem Memory.window_length (m : Memory) : ∀ (n a : Nat), (Memory.window m n a).length = min n (Config.memSize - a)
  | 0, a => by simp [Memory.window]
  | n + 1, a => by
    by_cases ha : a < Config.memSize
    · simp only [Memory.window, ha, if_true, List.length_cons, Memory.window_length m n (a + 1)]
      omega
    · simp only [Memory.window, ha, if_false, List.length_nil]
      omega

/-- The window's bytes are the cells' bytes. -/
theorem Memory.window_getElem (m : Memory) : ∀ (n a i : Nat) (h : i < (Memory.window m n a).length),
    (Memory.window m n a)[i] = Memory.get m (a + i)
  | 0, _, i, h => by simp [Memory.window] at h
  | n + 1, a, i, h => by
    by_cases ha : a < Config.memSize
    · cases i with
      | zero => simp [Memory.window, ha]
      | succ i =>
        have e : a + (i + 1) = (a + 1) + i := by omega
        have h' : i < (Memory.window m n (a + 1)).length := by
          simpa [Memory.window, ha] using h
        simp only [Memory.window, ha, if_true, List.getElem_cons_succ]
        rw [e]
        exact Memory.window_getElem m n (a + 1) i h'
    · simp [Memory.window, ha] at h

end Sys2Proof.Machine
end

