-- ==== Sys2Proof/Laws/State.lean ====
section
/-! SUPPORT. One lemma per field per update of the state, and the laws of the register file. -/

namespace Sys2Proof.Machine

/-! The register file: a read after a write. -/

@[simp] theorem Regs.get_set_self (x : Regs) (r : Reg) (v : Byte) : (x.set r v).get r = v := by
  cases r <;> rfl

theorem Regs.get_set_other (x : Regs) {r q : Reg} (v : Byte) (h : q ≠ r) : (x.set r v).get q = x.get q := by
  cases r <;> cases q <;> first | rfl | exact absurd rfl h

theorem Regs.get_set (x : Regs) (r q : Reg) (v : Byte) :
    (x.set r v).get q = if q = r then v else x.get q := by
  by_cases h : q = r
  · subst h; simp
  · simp [h, Regs.get_set_other x v h]

@[simp] theorem Regs.set_set_self (x : Regs) (r : Reg) (v w : Byte) : (x.set r v).set r w = x.set r w := by
  cases r <;> rfl

theorem Regs.set_comm (x : Regs) {r q : Reg} (v w : Byte) (h : q ≠ r) :
    (x.set r v).set q w = (x.set q w).set r v := by
  cases r <;> cases q <;> first | rfl | exact absurd rfl h

/-- Register files that read the same everywhere are the same data. -/
theorem Regs.ext_get {x y : Regs} (h : ∀ r, x.get r = y.get r) : x = y := by
  have h0 := h .r0; have h1 := h .r1; have h2 := h .r2; have h3 := h .r3
  have h4 := h .r4; have h5 := h .r5; have h6 := h .r6; have h7 := h .r7
  cases x; cases y
  simp only [Regs.get] at h0 h1 h2 h3 h4 h5 h6 h7
  subst h0 h1 h2 h3 h4 h5 h6 h7
  rfl

/-! `x[r] <- v`. -/

@[simp] theorem setReg_x (s : State) (r : Reg) (v : Byte) : (s.setReg r v).x = s.x.set r v := rfl
@[simp] theorem setReg_pc (s : State) (r : Reg) (v : Byte) : (s.setReg r v).pc = s.pc := rfl
@[simp] theorem setReg_fl (s : State) (r : Reg) (v : Byte) : (s.setReg r v).fl = s.fl := rfl
@[simp] theorem setReg_state (s : State) (r : Reg) (v : Byte) : (s.setReg r v).state = s.state := rfl
@[simp] theorem setReg_fault (s : State) (r : Reg) (v : Byte) : (s.setReg r v).fault = s.fault := rfl
@[simp] theorem setReg_mem (s : State) (r : Reg) (v : Byte) : (s.setReg r v).mem = s.mem := rfl
@[simp] theorem setReg_out (s : State) (r : Reg) (v : Byte) : (s.setReg r v).out = s.out := rfl
@[simp] theorem setReg_unk (s : State) (r : Reg) (v : Byte) : (s.setReg r v).unk = s.unk := rfl
@[simp] theorem setReg_ran (s : State) (r : Reg) (v : Byte) : (s.setReg r v).ran = s.ran := rfl
@[simp] theorem setReg_freeIx (s : State) (r : Reg) (v : Byte) : (s.setReg r v).freeIx = s.freeIx := rfl

@[simp] theorem reg_setReg_self (s : State) (r : Reg) (v : Byte) : (s.setReg r v).reg r = v :=
  Regs.get_set_self s.x r v

theorem reg_setReg_other (s : State) {r q : Reg} (v : Byte) (h : q ≠ r) : (s.setReg r v).reg q = s.reg q :=
  Regs.get_set_other s.x v h

theorem reg_setReg (s : State) (r q : Reg) (v : Byte) :
    (s.setReg r v).reg q = if q = r then v else s.reg q := Regs.get_set s.x r q v

/-! The choice of the next program counter. -/

@[simp] theorem selectPc_x (s : State) (p : PcSource) : (s.selectPc p).x = s.x := rfl
@[simp] theorem selectPc_pc (s : State) (p : PcSource) : (s.selectPc p).pc = p.next s.pc := rfl
@[simp] theorem selectPc_fl (s : State) (p : PcSource) : (s.selectPc p).fl = s.fl := rfl
@[simp] theorem selectPc_state (s : State) (p : PcSource) : (s.selectPc p).state = s.state := rfl
@[simp] theorem selectPc_fault (s : State) (p : PcSource) : (s.selectPc p).fault = s.fault := rfl
@[simp] theorem selectPc_mem (s : State) (p : PcSource) : (s.selectPc p).mem = s.mem := rfl
@[simp] theorem selectPc_out (s : State) (p : PcSource) : (s.selectPc p).out = s.out := rfl
@[simp] theorem selectPc_unk (s : State) (p : PcSource) : (s.selectPc p).unk = s.unk := rfl
@[simp] theorem selectPc_ran (s : State) (p : PcSource) : (s.selectPc p).ran = s.ran := rfl
@[simp] theorem selectPc_freeIx (s : State) (p : PcSource) : (s.selectPc p).freeIx = s.freeIx := rfl
@[simp] theorem selectPc_reg (s : State) (p : PcSource) (r : Reg) : (s.selectPc p).reg r = s.reg r := rfl

/-! The two streams. -/

@[simp] theorem emitOut_x (s : State) (v : Byte) : (s.emitOut v).x = s.x := rfl
@[simp] theorem emitOut_pc (s : State) (v : Byte) : (s.emitOut v).pc = s.pc := rfl
@[simp] theorem emitOut_fl (s : State) (v : Byte) : (s.emitOut v).fl = s.fl := rfl
@[simp] theorem emitOut_state (s : State) (v : Byte) : (s.emitOut v).state = s.state := rfl
@[simp] theorem emitOut_fault (s : State) (v : Byte) : (s.emitOut v).fault = s.fault := rfl
@[simp] theorem emitOut_mem (s : State) (v : Byte) : (s.emitOut v).mem = s.mem := rfl
@[simp] theorem emitOut_out (s : State) (v : Byte) : (s.emitOut v).out = s.out ++ [v] := rfl
@[simp] theorem emitOut_unk (s : State) (v : Byte) : (s.emitOut v).unk = s.unk := rfl
@[simp] theorem emitOut_ran (s : State) (v : Byte) : (s.emitOut v).ran = s.ran := rfl
@[simp] theorem emitOut_freeIx (s : State) (v : Byte) : (s.emitOut v).freeIx = s.freeIx := rfl

@[simp] theorem emitUnknown_x (s : State) (o : Byte) : (s.emitUnknown o).x = s.x := rfl
@[simp] theorem emitUnknown_pc (s : State) (o : Byte) : (s.emitUnknown o).pc = s.pc := rfl
@[simp] theorem emitUnknown_fl (s : State) (o : Byte) : (s.emitUnknown o).fl = s.fl := rfl
@[simp] theorem emitUnknown_state (s : State) (o : Byte) : (s.emitUnknown o).state = s.state := rfl
@[simp] theorem emitUnknown_fault (s : State) (o : Byte) : (s.emitUnknown o).fault = s.fault := rfl
@[simp] theorem emitUnknown_mem (s : State) (o : Byte) : (s.emitUnknown o).mem = s.mem := rfl
@[simp] theorem emitUnknown_out (s : State) (o : Byte) : (s.emitUnknown o).out = s.out := rfl
@[simp] theorem emitUnknown_unk (s : State) (o : Byte) :
    (s.emitUnknown o).unk = s.unk ++ [{ addr := s.pc.setWidth 8, opcode := o }] := rfl
@[simp] theorem emitUnknown_ran (s : State) (o : Byte) : (s.emitUnknown o).ran = s.ran := rfl
@[simp] theorem emitUnknown_freeIx (s : State) (o : Byte) : (s.emitUnknown o).freeIx = s.freeIx := rfl

/-! HALTED. -/

@[simp] theorem halt_x (s : State) : s.halt.x = s.x := rfl
@[simp] theorem halt_pc (s : State) : s.halt.pc = s.pc := rfl
@[simp] theorem halt_fl (s : State) : s.halt.fl = s.fl := rfl
@[simp] theorem halt_state (s : State) : s.halt.state = .halted := rfl
@[simp] theorem halt_fault (s : State) : s.halt.fault = s.fault := rfl
@[simp] theorem halt_mem (s : State) : s.halt.mem = s.mem := rfl
@[simp] theorem halt_out (s : State) : s.halt.out = s.out := rfl
@[simp] theorem halt_unk (s : State) : s.halt.unk = s.unk := rfl
@[simp] theorem halt_ran (s : State) : s.halt.ran = s.ran := rfl
@[simp] theorem halt_freeIx (s : State) : s.halt.freeIx = s.freeIx := rfl

/-! The note that a cycle executes. -/

@[simp] theorem beginCycle_x (s : State) : s.beginCycle.x = s.x := rfl
@[simp] theorem beginCycle_pc (s : State) : s.beginCycle.pc = s.pc := rfl
@[simp] theorem beginCycle_fl (s : State) : s.beginCycle.fl = s.fl := rfl
@[simp] theorem beginCycle_state (s : State) : s.beginCycle.state = s.state := rfl
@[simp] theorem beginCycle_fault (s : State) : s.beginCycle.fault = s.fault := rfl
@[simp] theorem beginCycle_mem (s : State) : s.beginCycle.mem = s.mem := rfl
@[simp] theorem beginCycle_out (s : State) : s.beginCycle.out = s.out := rfl
@[simp] theorem beginCycle_unk (s : State) : s.beginCycle.unk = s.unk := rfl
@[simp] theorem beginCycle_ran (s : State) : s.beginCycle.ran = true := rfl
@[simp] theorem beginCycle_freeIx (s : State) : s.beginCycle.freeIx = s.freeIx := rfl
@[simp] theorem beginCycle_reg (s : State) (r : Reg) : s.beginCycle.reg r = s.reg r := rfl

/-! Raising a fault: what it keeps, and what it records. -/

@[simp] theorem raise_x (s : State) (k : ErrorKind) (o : Option Byte) :
    (s.raise k o).x = s.x := rfl
@[simp] theorem raise_pc (s : State) (k : ErrorKind) (o : Option Byte) :
    (s.raise k o).pc = s.pc := rfl
@[simp] theorem raise_fl (s : State) (k : ErrorKind) (o : Option Byte) :
    (s.raise k o).fl = s.fl := rfl
@[simp] theorem raise_state (s : State) (k : ErrorKind) (o : Option Byte) :
    (s.raise k o).state = .faulted := rfl
@[simp] theorem raise_mem (s : State) (k : ErrorKind) (o : Option Byte) :
    (s.raise k o).mem = s.mem := rfl
@[simp] theorem raise_out (s : State) (k : ErrorKind) (o : Option Byte) :
    (s.raise k o).out = s.out := rfl
@[simp] theorem raise_unk (s : State) (k : ErrorKind) (o : Option Byte) :
    (s.raise k o).unk = s.unk := rfl
@[simp] theorem raise_ran (s : State) (k : ErrorKind) (o : Option Byte) :
    (s.raise k o).ran = s.ran := rfl
@[simp] theorem raise_freeIx (s : State) (k : ErrorKind) (o : Option Byte) :
    (s.raise k o).freeIx = s.freeIx := rfl
@[simp] theorem raise_fault_kind (s : State) (k : ErrorKind) (o : Option Byte) :
    (s.raise k o).fault.kind = k := rfl
@[simp] theorem raise_fault_pc (s : State) (k : ErrorKind) (o : Option Byte) :
    (s.raise k o).fault.pc = s.pc := rfl
@[simp] theorem raise_fault_opcodeValid (s : State) (k : ErrorKind) (o : Option Byte) :
    (s.raise k o).fault.opcodeValid = o.isSome := rfl
@[simp] theorem raise_fault_opcode_some (s : State) (k : ErrorKind) (b : Byte) :
    (s.raise k (some b)).fault.opcode = b := rfl
@[simp] theorem raise_fault_opcode_none (s : State) (k : ErrorKind) :
    (s.raise k none).fault.opcode = s.fault.opcode := rfl

/-- A rejected decode is raised with the kind of its place in R155, and with the opcode byte where there is one. -/
theorem raiseDecode_eq (s : State) (e : DecodeError) : s.raiseDecode e =
    match e with
    | .opcodeMissing => s.raise .memoryAccessError none
    | .operandMissing b => s.raise .memoryAccessError (some b)
    | .registerIndex b => s.raise .registerIndexError (some b) := by cases e <;> rfl

end Sys2Proof.Machine
end

