-- ==== Sys2Proof/Laws/Ops.lean ====
section
/-! SUPPORT. For each shared operation, everything it can do. -/

namespace Sys2Proof.Machine

/-- A byte is always the address of a cell (R153: no data access can be out of range). -/
theorem byte_lt_memSize (v : Byte) : v.toNat < Config.memSize := v.isLt

@[simp] theorem memRead_byte (s : State) (v : Byte) : s.memRead v.toNat = .ok (s.byteAt v.toNat) := by
  simp [State.memRead, State.byteAt, byte_lt_memSize v]

@[simp] theorem memWrite_byte (s : State) (a v : Byte) :
    s.memWrite a.toNat v = .ok { s with mem := s.mem.set a.toNat v } := by
  simp [State.memWrite, byte_lt_memSize a]

/-- The two ways of a read. -/
theorem memRead_cases (s : State) (a : Nat) :
    (a < Config.memSize ∧ s.memRead a = .ok (s.mem.get a)) ∨
    (Config.memSize ≤ a ∧ s.memRead a = .error .memoryAccessError) := by
  by_cases h : a < Config.memSize
  · exact .inl ⟨h, if_pos h⟩
  · exact .inr ⟨Nat.le_of_not_lt h, if_neg h⟩

/-- The two ways of a write. -/
theorem memWrite_cases (s : State) (a : Nat) (v : Byte) :
    (a < Config.memSize ∧ s.memWrite a v = .ok { s with mem := s.mem.set a v }) ∨
    (Config.memSize ≤ a ∧ s.memWrite a v = .error .memoryAccessError) := by
  by_cases h : a < Config.memSize
  · exact .inl ⟨h, if_pos h⟩
  · exact .inr ⟨Nat.le_of_not_lt h, if_neg h⟩

theorem decSp_zero {s : State} (h : s.reg .sp = 0) : s.decSp = .error .stackError := if_pos h

theorem decSp_pos {s : State} (h : s.reg .sp ≠ 0) : s.decSp = .ok (s.setReg .sp (s.reg .sp - 1)) := if_neg h

/-- The two ways of the stack pointer's decrement. -/
theorem decSp_cases (s : State) :
    (s.reg .sp = 0 ∧ s.decSp = .error .stackError) ∨
    (s.reg .sp ≠ 0 ∧ s.decSp = .ok (s.setReg .sp (s.reg .sp - 1))) := by
  by_cases h : s.reg .sp = 0
  · exact .inl ⟨h, decSp_zero h⟩
  · exact .inr ⟨h, decSp_pos h⟩

@[simp] theorem complete_ok (s t : State) (op : Op) : s.complete op (.ok t) = .next t := rfl

@[simp] theorem complete_error (s : State) (op : Op) (k : ErrorKind) :
    s.complete op (.error k) = .next (s.raise k (some op.byte)) := rfl

/-- The end of an execute phase always answers a next state: the Operation's, or the state with the fault raised. -/
theorem complete_cases (s : State) (op : Op) (r : Attempt State) :
    (∃ t, r = .ok t ∧ s.complete op r = .next t) ∨
    (∃ k, r = .error k ∧ s.complete op r = .next (s.raise k (some op.byte))) := by
  cases r with
  | ok t => exact .inl ⟨t, rfl, rfl⟩
  | error k => exact .inr ⟨k, rfl, rfl⟩

/-! The selections of the program counter. -/

@[simp] theorem next_hold (pc : Pc) : PcSource.hold.next pc = pc := rfl
@[simp] theorem next_inc1 (pc : Pc) : PcSource.inc1.next pc = pc + 1 := rfl
@[simp] theorem next_inc2 (pc : Pc) : PcSource.inc2.next pc = pc + 2 := rfl
@[simp] theorem next_inc3 (pc : Pc) : PcSource.inc3.next pc = pc + 3 := rfl
@[simp] theorem next_reg (pc : Pc) (t : Byte) : (PcSource.reg t).next pc = t.setWidth 9 := rfl
@[simp] theorem next_mem (pc : Pc) (t : Byte) : (PcSource.mem t).next pc = t.setWidth 9 := rfl

/-- A target is never above 255 (R18). -/
theorem target_le (t : Byte) : (t.setWidth 9 : Pc).toNat ≤ 255 := by
  have := t.isLt
  simp only [BitVec.toNat_setWidth]
  omega

/-! The ALU. -/

@[simp] theorem latchAlu_add (s : State) (a b : Byte) : s.latchAlu (alu .add a b) = s := rfl
@[simp] theorem latchAlu_mul (s : State) (a b : Byte) : s.latchAlu (alu .mul a b) = s := rfl
@[simp] theorem latchAlu_cmp (s : State) (a b : Byte) :
    s.latchAlu (alu .cmp a b) = { s with fl := compareFlags a b } := rfl

/-- A compare sets exactly one of the three bits (R20). -/
theorem compareFlags_one_hot (a b : Byte) :
    compareFlags a b = 0b001 ∨ compareFlags a b = 0b010 ∨ compareFlags a b = 0b100 := by
  unfold compareFlags
  by_cases h : a = b
  · simp [h]
  · by_cases h' : b.toNat < a.toNat <;> simp [h, h']

/-! The step. -/

theorem exec_nop (s : State) : exec .nop s = execNop s := rfl
theorem exec_hlt (s : State) : exec .hlt s = execHlt s := rfl
theorem exec_ret (s : State) : exec .ret s = execRet s := rfl
theorem exec_push (r : Reg) (s : State) : exec (.push r) s = execPush r s := rfl
theorem exec_pop (r : Reg) (s : State) : exec (.pop r) s = execPop r s := rfl
theorem exec_prn (r : Reg) (s : State) : exec (.prn r) s = execPrn r s := rfl
theorem exec_call (r : Reg) (s : State) : exec (.call r) s = execCall r s := rfl
theorem exec_jmp (r : Reg) (s : State) : exec (.jmp r) s = execJmp r s := rfl
theorem exec_jeq (r : Reg) (s : State) : exec (.jeq r) s = execJeq r s := rfl
theorem exec_jne (r : Reg) (s : State) : exec (.jne r) s = execJne r s := rfl
theorem exec_ldi (r : Reg) (v : Byte) (s : State) : exec (.ldi r v) s = execLdi r v s := rfl
theorem exec_add (a b : Reg) (s : State) : exec (.add a b) s = execAdd a b s := rfl
theorem exec_mul (a b : Reg) (s : State) : exec (.mul a b) s = execMul a b s := rfl
theorem exec_cmp (a b : Reg) (s : State) : exec (.cmp a b) s = execCmp a b s := rfl
theorem exec_skip (o : Byte) (s : State) : exec (.skip o) s = execSkip o s := rfl

/-- The step of a RUNNING state has two ways: the decoded instruction runs, or the decode's fault is taken. -/
theorem step_running {s : State} (h : s.state = .running) :
    (∃ i, s.fetchDecode = .ok i ∧ step s = exec i s.beginCycle) ∨
    (∃ e, s.fetchDecode = .error e ∧ step s = .next (s.beginCycle.raiseDecode e)) := by
  unfold step
  rw [h]
  cases hd : s.fetchDecode with
  | ok i => exact .inl ⟨i, rfl, rfl⟩
  | error e => exact .inr ⟨e, rfl, rfl⟩

end Sys2Proof.Machine
end

