-- ==== Sys2Proof/Tests/Slice0.lean ====
section
/-! SUPPORT. The model's own tests: the WellFormed smoke test, words of every row, single cycles from spec
95_test_vectors.md (V<n> names the vector the expected values are from), and a witness for the hypotheses of each
statement. -/

namespace Sys2Proof.Tests

open Sys2Proof.Machine

/-- The start state of section 2 of 95_test_vectors.md: registers 00 but R7 = F4, the bytes placed at `pc` upward. -/
def at_ (pc : Pc) (bytes : List Byte) : State :=
  { State.reset with x := State.reset.x.set .r7 0xF4, pc := pc, mem := Memory.setBytes [] pc.toNat bytes }

def withReg (r : Reg) (v : Byte) (s : State) : State := s.setReg r v
def withFl (f : BitVec 3) (s : State) : State := { s with fl := f }
def withCell (a : Nat) (v : Byte) (s : State) : State := { s with mem := s.mem.set a v }

/-- The next state meets the check; a stop does not. -/
def leaves (o : StepOutcome) (check : State → Bool) : Bool :=
  match o with
  | .next t => check t
  | .fault _ => false
  | .refused _ => false

/-- A fault as the vectors write it: (kind, fault_pc, fault_opcode). -/
def faultedAs (k : ErrorKind) (pc : Pc) (op : Byte) (t : State) : Bool :=
  t.state == .faulted && t.pc == pc && t.fault == { kind := k, pc := pc, opcodeValid := true, opcode := op }

/-! WellFormed. -/

theorem test_wellFormed_refuses_skip_of_nop : (Instr.skip 0x00).wellFormed = false := by decide
theorem test_wellFormed_refuses_skip_of_known : (Instr.skip 0x45).wellFormed = false := by decide
theorem test_wellFormed_accepts_skip_of_FF : (Instr.skip 0xFF).wellFormed = true := by decide

/-! Words from the format pictures of 30_encoding.md R60 and the opcode map of R64, second and third bytes above the first;
then the assembly text of R69. -/

theorem test_word_nop : decodeTableWord 8 0b00000000 = some .nop := by decide
theorem test_word_hlt : decodeTableWord 8 0b00000001 = some .hlt := by decide
theorem test_word_ret : decodeTableWord 8 0b00010001 = some .ret := by decide
theorem test_word_push : decodeTableWord 16 0b00000001_01000101 = some (.push .r1) := by decide
theorem test_word_pop : decodeTableWord 16 0b00000010_01000110 = some (.pop .r2) := by decide
theorem test_word_prn : decodeTableWord 16 0b00000011_01000111 = some (.prn .r3) := by decide
theorem test_word_call : decodeTableWord 16 0b00000100_01010000 = some (.call .r4) := by decide
theorem test_word_jmp : decodeTableWord 16 0b00000101_01010100 = some (.jmp .r5) := by decide
theorem test_word_jeq : decodeTableWord 16 0b00000110_01010101 = some (.jeq .r6) := by decide
theorem test_word_jne : decodeTableWord 16 0b00000111_01010110 = some (.jne .r7) := by decide
theorem test_word_ldi : decodeTableWord 24 0b11001010_00000011_10000010 = some (.ldi .r3 0xCA) := by decide
theorem test_word_add : decodeTableWord 24 0b00000010_00000001_10100000 = some (.add .r1 .r2) := by decide
theorem test_word_mul : decodeTableWord 24 0b00000100_00000011_10100010 = some (.mul .r3 .r4) := by decide
theorem test_word_cmp : decodeTableWord 24 0b00000110_00000101_10100111 = some (.cmp .r5 .r6) := by decide
theorem test_word_skip : decodeTableWord 8 0b11111111 = some (.skip 0xFF) := by decide
theorem test_word_index_8_rejected : decodeTableWord 24 0b00000000_00001000_10000010 = none := by decide
theorem test_word_high_bits_are_zero : decodeTableWord 8 0x0745 = some (.push .r0) := by decide
theorem test_decode_names_the_missing_operand : decode [0xA0, 0x08] = .error (.operandMissing 0xA0) := rfl
theorem test_decode_names_the_bad_index : decode [0xA0, 0x00, 0x08] = .error (.registerIndex 0xA0) := rfl
theorem test_text_ldi : Instr.text (.ldi .r0 8) = "LDI R0, 8" := by decide
/-- R65: the operand count in bits 7 to 6 of every opcode byte equals the format's. -/
theorem test_operand_count_bits : ∀ o ∈ Op.all, (o.byte >>> 6).toNat = o.operands := by decide

/-! Single cycles. -/

theorem test_nop_in_last_cell : leaves (step (at_ 0xFF [0x00])) (fun t => t.pc == 256 && t.unk == []) = true := by  -- V2
  decide
theorem test_fetch_at_256 : leaves (step (at_ 256 []))                                                         -- V3
    (fun t => t.state == .faulted && t.pc == 256 && t.fault.kind == .memoryAccessError && t.fault.pc == 256 &&
      !t.fault.opcodeValid) = true := by decide
theorem test_skip_FF : leaves (step (at_ 0x05 [0xFF]))                                                         -- V4
    (fun t => t.pc == 0x06 && t.unk == [⟨0x05, 0xFF⟩] && t.state == .running) = true := by decide
theorem test_skip_83_is_one_byte : leaves (step (at_ 0x20 [0x83, 0x01, 0x02]))                                 -- V7
    (fun t => t.pc == 0x21 && t.unk == [⟨0x20, 0x83⟩]) = true := by decide
theorem test_ldi_sets_sp : leaves (step (at_ 0x00 [0x82, 0x07, 0x80]))                                         -- V11
    (fun t => t.pc == 0x03 && t.reg .r7 == 0x80) = true := by decide
theorem test_ldi_at_FE : leaves (step (at_ 0xFE [0x82, 0x00]))                                                 -- V14
    (faultedAs .memoryAccessError 0xFE 0x82) = true := by decide
theorem test_prn_sp : leaves (step (at_ 0x06 [0x47, 0x07])) (fun t => t.pc == 0x08 && t.out == [0xF4]) = true := by
  decide                                                                                                       -- V19
theorem test_prn_index_9 : leaves (step (at_ 0x06 [0x47, 0x09]))                                               -- V22
    (fun t => faultedAs .registerIndexError 0x06 0x47 t && t.out == []) = true := by decide
theorem test_hlt : leaves (step (at_ 0x08 [0x01])) (fun t => t.pc == 0x08 && t.state == .halted) = true := by  -- V23
  decide
theorem test_push_sp : leaves (step (at_ 0x06 [0x45, 0x07]))                                                   -- V31
    (fun t => t.pc == 0x08 && t.reg .r7 == 0xF3 && t.byteAt 0xF3 == 0xF3) = true := by decide
theorem test_push_index_before_stack : leaves (step (withReg .r7 0x00 (at_ 0x06 [0x45, 0x09])))                -- V34
    (faultedAs .registerIndexError 0x06 0x45) = true := by decide
theorem test_pop_sp : leaves (step (withCell 0xF3 0x40 (withReg .r7 0xF3 (at_ 0x08 [0x46, 0x07]))))            -- V38
    (fun t => t.pc == 0x0A && t.reg .r7 == 0x3F) = true := by decide
theorem test_pop_at_sp_0 :                                                                                     -- V40
    leaves (step (withCell 0x00 0x99 (withReg .r7 0x00 (withReg .r2 0x77 (at_ 0x08 [0x46, 0x02])))))
    (fun t => faultedAs .stackError 0x08 0x46 t && t.reg .r2 == 0x77) = true := by decide
theorem test_call_sp : leaves (step (at_ 0x03 [0x50, 0x07]))                                                   -- V51
    (fun t => t.pc == 0xF3 && t.reg .r7 == 0xF3 && t.byteAt 0xF3 == 0x05) = true := by decide
theorem test_call_stack_before_return_address :                                                                -- V55
    leaves (step (withReg .r7 0x00 (withReg .r1 0x08 (at_ 0xFE [0x50, 0x01]))))
    (faultedAs .stackError 0xFE 0x50) = true := by decide
theorem test_ret_at_sp_0 : leaves (step (withCell 0x00 0x82 (withReg .r7 0x00 (at_ 0x0B [0x11]))))             -- V60
    (fun t => t.pc == 0x82 && t.reg .r7 == 0x00 && t.state == .running) = true := by decide
theorem test_add_discards : leaves (step (withFl 2 (withReg .r0 0xFF (withReg .r1 0x01 (at_ 0x06 [0xA0, 0x00, 0x01])))))
    (fun t => t.pc == 0x09 && t.reg .r0 == 0xFF && t.reg .r1 == 0x01 && t.flByte == 0x02) = true := by decide  -- V70
theorem test_add_second_index : leaves (step (at_ 0x06 [0xA0, 0x00, 0x08]))                                    -- V73
    (faultedAs .registerIndexError 0x06 0xA0) = true := by decide
theorem test_mul_discards : leaves (step (withFl 1 (withReg .r0 0x08 (withReg .r1 0x09 (at_ 0x06 [0xA2, 0x00, 0x01])))))
    (fun t => t.pc == 0x09 && t.reg .r0 == 0x08 && t.flByte == 0x01) = true := by decide                       -- V76
theorem test_cmp_less : leaves (step (withFl 1 (withReg .r1 0x05 (withReg .r2 0x09 (at_ 0x09 [0xA7, 0x01, 0x02])))))
    (fun t => t.pc == 0x0C && t.flByte == 0x04) = true := by decide                                            -- V79
theorem test_cmp_unsigned : leaves (step (withReg .r1 0x80 (withReg .r2 0x7F (at_ 0x09 [0xA7, 0x01, 0x02]))))
    (fun t => t.pc == 0x0C && t.flByte == 0x02) = true := by decide                                            -- V84
theorem test_jmp_sp : leaves (step (at_ 0x07 [0x54, 0x07])) (fun t => t.pc == 0xF4) = true := by decide        -- V92
theorem test_jmp_at_FF : leaves (step (at_ 0xFF [0x54])) (faultedAs .memoryAccessError 0xFF 0x54) = true := by -- V94
  decide
theorem test_jeq_before_any_cmp : leaves (step (withReg .r3 0x20 (at_ 0x0C [0x55, 0x03])))                     -- V100
    (fun t => t.pc == 0x0E) = true := by decide
theorem test_jeq_taken : leaves (step (withFl 1 (withReg .r3 0x20 (at_ 0x0C [0x55, 0x03]))))                   -- V101
    (fun t => t.pc == 0x20 && t.flByte == 0x01) = true := by decide
theorem test_jne_taken_at_FE : leaves (step (withFl 2 (withReg .r3 0x20 (at_ 0xFE [0x56, 0x03]))))             -- V111
    (fun t => t.pc == 0x20) = true := by decide
theorem test_jne_not_taken_checks_index : leaves (step (withFl 1 (at_ 0x0C [0x56, 0x08])))                     -- V109
    (faultedAs .registerIndexError 0x0C 0x56) = true := by decide
theorem test_load_then_load : leaves (hostLoad [0xFF, 0xFF, 0xFF] State.reset) (fun s =>                       -- V124
    leaves (hostLoad [0x01] s) fun t => t.mem == [(0, 0x01)] && t.reg .r7 == 0xF4) = true := by decide
theorem test_load_257 : ∃ t, hostLoad (List.replicate 257 0xFF) State.reset = .next t ∧ t.state = .faulted ∧         -- V123
    t.statusPorts.faultKind = 1 ∧ t.reg .r7 = 0x00 :=
  ⟨State.reset.loadError, by simp only [hostLoad, List.length_replicate]; rfl, rfl, rfl, rfl⟩
/-- Nothing but the valid bit is written for an opcode that was not fetched (R82, R157). -/
theorem test_opcode_not_fetched : leaves (step (at_ 256 [])) (fun t => t.fault ==
    { kind := .memoryAccessError, pc := 256, opcodeValid := false, opcode := 0x00 }) = true := by decide
theorem test_reset_steps_nothing_placed : leaves (step State.reset) (fun t => t.pc == 1) = true := by decide   -- R30, R66
theorem test_fetch_word_runs_hlt : leaves (step (State.reset.withFetchWord 8 0x01))
    (fun t => t.state == .halted) = true := by decide

/-! Witnesses: a concrete state and operands that meet the hypotheses of each statement (at a boundary where a clause has
one). -/

theorem witness_DecodeOfEncode : (Instr.skip 0xFF).wellFormed = true ∧ (Instr.ldi .r7 0xFF).wellFormed = true := by decide
theorem witness_DecodedBytes : decode [0x82, 0x07, 0xFF, 0x01] = .ok (.ldi .r7 0xFF, [0x01]) := rfl
theorem witness_StepRunsDecoded : (at_ 0xFD [0x82, 0x00, 0xFF]).state = .running ∧
    decode (at_ 0xFD [0x82, 0x00, 0xFF]).fetchBytes = .ok (.ldi .r0 0xFF, []) := ⟨rfl, rfl⟩
theorem witness_StepRunsEncoded : (Instr.prn .r2).wellFormed = true ∧ (at_ 0xFE [0x47, 0x02]).state = .running ∧
    ∀ (k : Nat) (h : k < (encode (.prn .r2)).length), (at_ 0xFE [0x47, 0x02]).pc.toNat + k ≤ 255 ∧
      (at_ 0xFE [0x47, 0x02]).byteAt ((at_ 0xFE [0x47, 0x02]).pc.toNat + k) = (encode (.prn .r2))[k] := by decide
theorem witness_FetchWordRuns : (at_ 0xFD []).mem.wf = true ∧ (at_ 0xFD []).pc.toNat ≤ 253 ∧
    decodeTableWord 24 0xFF0782 = some (.ldi .r7 0xFF) := by decide
theorem witness_OpcodeFetchAt256 : (at_ 256 []).state = .running ∧ (at_ 256 []).pc = 256 := by decide
theorem witness_DecodePhase_memory : (at_ 0xFE [0x82, 0x08]).state = .running ∧ (at_ 0xFE [0x82, 0x08]).pc.toNat ≤ 255 ∧
    (at_ 0xFE [0x82, 0x08]).byteAt 0xFE = Op.ldi.byte ∧ 255 < 0xFE + Op.ldi.operands := by decide
theorem witness_DecodePhase_first_index : (at_ 0xFD [0x82, 0x08, 0x00]).state = .running ∧
    (at_ 0xFD [0x82, 0x08, 0x00]).byteAt 0xFD = Op.ldi.byte ∧ 0xFD + Op.ldi.operands ≤ 255 ∧ 1 ≤ Op.ldi.operands ∧
    7 < ((at_ 0xFD [0x82, 0x08, 0x00]).byteAt 0xFE).toNat := by decide
theorem witness_DecodePhase_second_index : (at_ 0xFD [0xA7, 0x07, 0x08]).state = .running ∧
    (at_ 0xFD [0xA7, 0x07, 0x08]).byteAt 0xFD = Op.cmp.byte ∧ 0xFD + Op.cmp.operands ≤ 255 ∧
    7 < ((at_ 0xFD [0xA7, 0x07, 0x08]).byteAt 0xFF).toNat := by decide
theorem witness_FaultCommitsNothing_fetched : ∃ t, (at_ 0xFF [0x47]).state = .running ∧
    step (at_ 0xFF [0x47]) = .next t ∧ t.state = .faulted ∧ (at_ 0xFF [0x47]).pc.toNat ≤ 255 := ⟨_, rfl, rfl, rfl, by decide⟩
theorem witness_FaultCommitsNothing_not_fetched : ∃ t, (at_ 256 []).state = .running ∧
    step (at_ 256 []) = .next t ∧ t.state = .faulted ∧ 255 < (at_ 256 []).pc.toNat := ⟨_, rfl, rfl, rfl, by decide⟩
theorem witness_NotRunning : (at_ 0 []).halt.state = .halted ∧ ((at_ 0 []).raise .stackError (some 0x45)).state = .faulted ∧
    (at_ 0 []).halt.state ≠ .running := by decide
/-- Also the witness of StepFaultsAsTheTableSays, RunningStateHasASuccessor, StepDrawsNoValue and
RunHasExactlyOneOutcome. -/
theorem witness_Running : (at_ 0 [0x01]).state = .running := by decide
theorem witness_NopRule : (at_ 0xFF [0x00]).pc.toNat ≤ 255 := by decide
theorem witness_SkipRule : (0xFF : Byte) ∉ specOpcodeBytes ∧ (at_ 0xFF [0xFF]).pc.toNat ≤ 255 := by decide

/-- PRN, PUSH, POP, CALL, JMP, JEQ, JNE: the two clauses of their decode faults. -/
theorem witness_DecodeFaultsR : ∀ op ∈ ([0x47, 0x45, 0x46, 0x50, 0x54, 0x55, 0x56] : List Byte),
    ((at_ 0xFF [op]).state = .running ∧ (at_ 0xFF [op]).pc.toNat ≤ 255 ∧ (at_ 0xFF [op]).byteAt 0xFF = op ∧
      (at_ 0xFF [op]).pc.toNat = 255) ∧
    ((at_ 0xFE [op, 0x08]).state = .running ∧ (at_ 0xFE [op, 0x08]).byteAt 0xFE = op ∧
      (at_ 0xFE [op, 0x08]).pc.toNat < 255 ∧ 7 < ((at_ 0xFE [op, 0x08]).byteAt 0xFF).toNat) := by decide
/-- LDI, ADD, MUL, CMP: the clauses of their decode faults, the first index and the second. -/
theorem witness_DecodeFaultsRI_RR : ∀ op ∈ ([0x82, 0xA0, 0xA2, 0xA7] : List Byte),
    ((at_ 0xFE [op]).state = .running ∧ (at_ 0xFE [op]).pc.toNat ≤ 255 ∧ (at_ 0xFE [op]).byteAt 0xFE = op ∧
      254 ≤ (at_ 0xFE [op]).pc.toNat) ∧
    ((at_ 0xFD [op, 0x08, 0x07]).state = .running ∧ (at_ 0xFD [op, 0x08, 0x07]).byteAt 0xFD = op ∧
      (at_ 0xFD [op, 0x08, 0x07]).pc.toNat < 254 ∧ 7 < ((at_ 0xFD [op, 0x08, 0x07]).byteAt 0xFE).toNat) ∧
    ((at_ 0xFD [op, 0x07, 0x08]).state = .running ∧ (at_ 0xFD [op, 0x07, 0x08]).byteAt 0xFD = op ∧
      (at_ 0xFD [op, 0x07, 0x08]).pc.toNat < 254 ∧ 7 < ((at_ 0xFD [op, 0x07, 0x08]).byteAt 0xFF).toNat) := by decide

theorem witness_HltRule : ∃ t, exec .hlt (at_ 0x08 [0x01]) = .next t := ⟨_, rfl⟩
/-- The stack pointer at both sides of its clause; also for CALL below. -/
theorem witness_PushRule : (withReg .r7 0x01 (at_ 0 [])).reg .sp ≠ 0 ∧ (withReg .r7 0x00 (at_ 0 [])).reg .sp = 0 := by decide
theorem witness_PopRule : Reg.r2 ≠ Reg.r7 ∧ (withReg .r7 0x01 (at_ 0 [])).reg .sp ≠ 0 ∧
    (withReg .r7 0x00 (at_ 0 [])).reg .sp = 0 ∧
    (withCell 0xF4 0x01 (at_ 0 [])).byteAt ((withCell 0xF4 0x01 (at_ 0 [])).reg .sp).toNat ≠ 0 ∧
    (at_ 0 []).byteAt ((at_ 0 []).reg .sp).toNat = 0 := by decide
theorem witness_CallRule :
    ((withReg .r7 0x01 (at_ 0xFD [])).reg .sp ≠ 0 ∧ (withReg .r7 0x01 (at_ 0xFD [])).pc.toNat + 2 ≤ 255) ∧
    (withReg .r7 0x00 (at_ 0xFE [])).reg .sp = 0 ∧
    ((withReg .r7 0x01 (at_ 0xFE [])).reg .sp ≠ 0 ∧ 255 < (withReg .r7 0x01 (at_ 0xFE [])).pc.toNat + 2) := by decide
theorem witness_JeqRule_JneRule : (withFl 1 (at_ 0 [])).flByte.getLsbD 0 = true ∧
    (withFl 2 (at_ 0 [])).flByte.getLsbD 0 = false := by decide
theorem witness_OnlyListedRegistersChange : ∃ t, exec (.pop .r2) (at_ 0 []) = .next t ∧
    writesReg (.pop .r2) .r3 = false := ⟨_, rfl, rfl⟩
theorem witness_UnlistedRegisters : readsReg (.push .r1) .r2 = false ∧ writesReg (.push .r1) .r2 = false := by decide
theorem witness_Flags : (∃ t, exec (.jeq .r3) (at_ 0 []) = .next t) ∧ (∀ a b, Instr.jeq .r3 ≠ .cmp a b) ∧
    (0b100 : BitVec 3).getLsbD 0 = (at_ 0 []).fl.getLsbD 0 ∧
    (∀ r, Instr.nop ≠ .jeq r) ∧ (∀ r, Instr.nop ≠ .jne r) ∧ (∀ a b, Instr.nop ≠ .cmp a b) := by
  refine ⟨⟨_, rfl⟩, ?_, rfl, ?_, ?_, ?_⟩ <;> intros <;> exact fun h => by cases h
theorem witness_Memory_no_store : (∃ t, exec .ret (at_ 0 []) = .next t) ∧ (∀ r, Instr.ret ≠ .push r) ∧
    (∀ r, Instr.ret ≠ .call r) := by
  refine ⟨⟨_, rfl⟩, ?_, ?_⟩ <;> intros <;> exact fun h => by cases h
theorem witness_Memory_store : (∃ t, exec (.push .r1) (withReg .r7 0x01 (at_ 0 [])) = .next t) ∧
    (∃ s1, (withReg .r7 0x01 (at_ 0 [])).decSp = .ok s1 ∧ 0 = (s1.reg .sp).toNat) ∧
    (∃ t, exec (.call .r1) (withReg .r7 0x00 (at_ 0 [])) = .next t) ∧
    (∃ k, (withReg .r7 0x00 (at_ 0 [])).decSp = .error k) := ⟨⟨_, rfl⟩, ⟨_, rfl, rfl⟩, ⟨_, rfl⟩, ⟨_, rfl⟩⟩
/-- The three kinds of clause: an instruction that is no PRN, one that is no skip, and a next state that is not FAULTED. -/
theorem witness_Streams : ∃ t, exec .nop (at_ 0 []) = .next t ∧ (∀ r, Instr.nop ≠ .prn r) ∧ (∀ o, Instr.nop ≠ .skip o) ∧
    t.state ≠ .faulted := by
  refine ⟨_, rfl, ?_, ?_, by decide⟩ <;> intros <;> exact fun h => by cases h
theorem witness_PushedByteIsFetched : ∃ t, (at_ 0x06 [0x45, 0x01]).mem.wf = true ∧ (at_ 0x06 [0x45, 0x01]).reg .sp ≠ 0 ∧
    exec (.push .r1) (at_ 0x06 [0x45, 0x01]) = .next t ∧ ({ t with pc := 0xF3 } : State).mem = t.mem ∧
    ({ t with pc := 0xF3 } : State).pc = ((at_ 0x06 [0x45, 0x01]).reg .sp - 1).setWidth 9 :=
  ⟨_, by decide, by decide, rfl, rfl, by decide⟩
theorem witness_RetReturnsAfterCall : ∃ t, (at_ 0xFD [0x50, 0x01]).mem.wf = true ∧ (at_ 0xFD [0x50, 0x01]).reg .sp ≠ 0 ∧
    (at_ 0xFD [0x50, 0x01]).pc.toNat ≤ 253 ∧ exec (.call .r1) (at_ 0xFD [0x50, 0x01]) = .next t ∧
    ({ t with pc := 0x0B } : State).reg .sp = t.reg .sp :=
  ⟨_, by decide, by decide, by decide, rfl, rfl⟩
theorem witness_TwoPushesTwoPops : (withReg .r7 0x04 (at_ 0x20 [])).mem.wf = true ∧
    4 ≤ ((withReg .r7 0x04 (at_ 0x20 [])).reg .sp).toNat ∧ Reg.r1 ≠ .r7 ∧ Reg.r2 ≠ .r7 ∧ Reg.r3 ≠ .r7 ∧ Reg.r4 ≠ .r7 ∧
    Reg.r3 ≠ .r4 := by decide
theorem witness_StackPointer : (∃ t, exec (.pop .r2) (at_ 0 []) = .next t) ∧ (∀ v, Instr.pop .r2 ≠ .ldi .r7 v) ∧
    Instr.pop .r2 ≠ .pop .r7 := ⟨⟨_, rfl⟩, fun _ => nofun, by decide⟩
/-- A launch state of the one-byte program HLT has the invariant (also the witness of FaultKindCodes). -/
theorem witness_RunInvariant : RunInvariant (at_ 0 [0x01]) where
  memory_canonical := by decide
  pc_range := by decide
  flags_one_hot := by decide
  latched_iff_faulted := by decide
  unknown_never_latched := by decide
  unsupported_never_raised := by decide
  clear_when_none := by decide
  fault_at_pc := fun h => absurd h (by decide)
  fault_opcode_fetched := fun h => absurd h (by decide)
  fault_opcode_zero := fun _ => rfl
  halted_at_hlt := fun h => absurd h (by decide)
  events_unknown := fun _ h => by cases h
theorem witness_StepKeeps : RunInvariant (at_ 0 [0x01]) ∧ ∃ t, step (at_ 0 [0x01]) = .next t := ⟨witness_RunInvariant, _, rfl⟩
theorem witness_LoadKeeps : RunInvariant (at_ 0 [0x01]) ∧ ∃ t, hostLoad [0x01] (at_ 0 [0x01]) = .next t :=
  ⟨witness_RunInvariant, _, rfl⟩
theorem witness_FlagsNeverClear : (withFl 4 (at_ 0 [])).fl ≠ 0 ∧ hostRun 0 (withFl 4 (at_ 0 [])) = withFl 4 (at_ 0 []) ∧
    ∃ t, exec (.cmp .r1 .r2) (at_ 0 []) = .next t := ⟨by decide, rfl, _, rfl⟩
/-- The three clauses of LoadWritesImageAndStackPointer, and the image length of 256 that LaunchStateIsAsListed allows. -/
theorem witness_Load : State.reset.state = .running ∧ State.reset.ran = false ∧
    (List.replicate 256 (0xFF : Byte)).length ≤ 256 ∧ State.reset.halt.state ≠ .running ∧
    State.reset.beginCycle.state = .running ∧ State.reset.beginCycle.ran = true := by
  simp only [List.length_replicate]; decide
theorem witness_LongImage : State.reset.state = .running ∧ State.reset.ran = false ∧
    256 < (List.replicate 257 (0xFF : Byte)).length := by
  simp only [List.length_replicate]; decide
theorem witness_SecondLoad : ([0xFF, 0xFF, 0xFF] : List Byte).length ≤ 256 ∧ ([0x01] : List Byte).length ≤ 256 ∧
    ∃ t, hostLoad [0xFF, 0xFF, 0xFF] State.reset = .next t := ⟨by decide, by decide, _, rfl⟩
/-- Also the witness of StreamPortsAccountForTheCycle. -/
theorem witness_Ports : (at_ 0xFF [0x01]).state = .running ∧ (∃ t, step (at_ 0xFF [0x01]) = .next t) ∧
    (at_ 0xFF [0x01]).pc.toNat ≤ 255 ∧ 255 < (at_ 256 []).pc.toNat := ⟨rfl, ⟨_, rfl⟩, by decide, by decide⟩
theorem witness_Ports_decode : decode (at_ 0xFE [0x46, 0x07]).fetchBytes = .ok (.pop .r7, []) ∧
    decode (at_ 0xFF [0x46]).fetchBytes = .error (.operandMissing 0x46) := ⟨rfl, rfl⟩
theorem witness_Ports_no_data : (∀ r, Instr.hlt ≠ .push r ∧ Instr.hlt ≠ .call r ∧ Instr.hlt ≠ .pop r) ∧
    Instr.hlt ≠ .ret := ⟨fun _ => ⟨nofun, nofun, nofun⟩, nofun⟩
/-- Both sides of the equivalence of OnlyHltHoldsThePc. -/
theorem witness_OnlyHltHoldsThePc : (∃ t, exec .hlt (at_ 0 []) = .next t ∧ t.state ≠ .faulted) ∧
    (∃ t, exec .nop (at_ 0xFF []) = .next t ∧ t.state ≠ .faulted) ∧ Instr.hlt ≠ .ret ∧ Instr.nop ≠ .ret ∧
    (∀ r, Instr.hlt ≠ .jmp r ∧ Instr.hlt ≠ .jeq r ∧ Instr.hlt ≠ .jne r ∧ Instr.hlt ≠ .call r) ∧
    ∀ r, Instr.nop ≠ .jmp r ∧ Instr.nop ≠ .jeq r ∧ Instr.nop ≠ .jne r ∧ Instr.nop ≠ .call r :=
  ⟨⟨_, rfl, nofun⟩, ⟨_, rfl, nofun⟩, nofun, nofun, fun _ => ⟨nofun, nofun, nofun, nofun⟩,
    fun _ => ⟨nofun, nofun, nofun, nofun⟩⟩

end Sys2Proof.Tests
end

section
/-! SUPPORT. What the decode phase accepts and rejects, and the bytes it looks at. -/

namespace Sys2Proof

theorem decodeOperands_z_iff {o : Byte} {j i : Instr} {bytes rest : List Byte} :
    decodeOperands o (.z j) bytes = .ok (i, rest) ↔ i = j ∧ bytes = rest := by
  simp [decodeOperands, eq_comm]

theorem decodeOperands_r_iff {o : Byte} {f : Reg → Instr} {i : Instr} {bytes rest : List Byte} :
    decodeOperands o (.r f) bytes = .ok (i, rest) ↔ ∃ r : Reg, i = f r ∧ bytes = r.byte :: rest := by
  constructor
  · intro h
    match bytes with
    | [] => cases h
    | a :: tail =>
      simp only [decodeOperands] at h
      split at h
      next r hr => cases h; exact ⟨r, rfl, by rw [Reg.byte_of_ofByte hr]⟩
      next => cases h
  · rintro ⟨r, rfl, rfl⟩
    simp [decodeOperands]

theorem decodeOperands_rr_iff {o : Byte} {f : Reg → Reg → Instr} {i : Instr} {bytes rest : List Byte} :
    decodeOperands o (.rr f) bytes = .ok (i, rest) ↔
      ∃ a b : Reg, i = f a b ∧ bytes = a.byte :: b.byte :: rest := by
  constructor
  · intro h
    match bytes with
    | [] => cases h
    | [_] => cases h
    | a :: b :: tail =>
      simp only [decodeOperands] at h
      split at h
      next ra rb ha hb =>
        cases h
        exact ⟨ra, rb, rfl, by rw [Reg.byte_of_ofByte ha, Reg.byte_of_ofByte hb]⟩
      next => cases h
  · rintro ⟨a, b, rfl, rfl⟩
    simp [decodeOperands]

theorem decodeOperands_ri_iff {o : Byte} {f : Reg → Byte → Instr} {i : Instr} {bytes rest : List Byte} :
    decodeOperands o (.ri f) bytes = .ok (i, rest) ↔
      ∃ (r : Reg) (v : Byte), i = f r v ∧ bytes = r.byte :: v :: rest := by
  constructor
  · intro h
    match bytes with
    | [] => cases h
    | [_] => cases h
    | a :: v :: tail =>
      simp only [decodeOperands] at h
      split at h
      next r hr => cases h; exact ⟨r, v, rfl, by rw [Reg.byte_of_ofByte hr]⟩
      next => cases h
  · rintro ⟨r, v, rfl, rfl⟩
    simp [decodeOperands]

/-- The bytes of a known opcode that decode are the encoding of the instruction and what follows it. -/
theorem encode_append_of_decodeOperands {o : Op} {i : Instr} {bytes rest : List Byte}
    (h : decodeOperands o.byte o.shape bytes = .ok (i, rest)) :
    o.byte :: bytes = encode i ++ rest ∧ i.wellFormed = true := by
  cases o
  case nop | hlt | ret =>
    obtain ⟨rfl, rfl⟩ := decodeOperands_z_iff.mp h
    exact ⟨rfl, rfl⟩
  case push | pop | prn | call | jmp | jeq | jne =>
    obtain ⟨r, rfl, rfl⟩ := decodeOperands_r_iff.mp h
    exact ⟨rfl, rfl⟩
  case ldi =>
    obtain ⟨r, v, rfl, rfl⟩ := decodeOperands_ri_iff.mp h
    exact ⟨rfl, rfl⟩
  case add | mul | cmp =>
    obtain ⟨a, b, rfl, rfl⟩ := decodeOperands_rr_iff.mp h
    exact ⟨rfl, rfl⟩

/-- What decodes is the encoding of a well-formed instruction and what follows it (R60 to R64, R67). -/
theorem encode_append_of_decode {i : Instr} {bytes rest : List Byte} (h : decode bytes = .ok (i, rest)) :
    bytes = encode i ++ rest ∧ i.wellFormed = true := by
  match bytes with
  | [] => cases h
  | b :: tail =>
    simp only [decode] at h
    split at h
    next o ho =>
      rw [← Op.byte_of_ofByte ho] at h ⊢
      exact encode_append_of_decodeOperands h
    next hb =>
      cases h
      exact ⟨rfl, by simp [Instr.wellFormed, hb]⟩

/-- The operand part of the decode phase rejects with the opcode byte it was given (R83). -/
theorem decodeOperands_error {o : Byte} {sh : Shape} {bytes : List Byte} {e : DecodeError}
    (h : decodeOperands o sh bytes = .error e) : e = .operandMissing o ∨ e = .registerIndex o := by
  unfold decodeOperands at h
  repeat' split at h
  all_goals cases h
  all_goals simp

/-- The two ways of a rejected decode: no byte at all, or an operand of the opcode byte at hand (R82, R83). -/
theorem decode_error_cases {bytes : List Byte} {e : DecodeError} (h : decode bytes = .error e) :
    (bytes = [] ∧ e = .opcodeMissing) ∨
    ∃ b tail, bytes = b :: tail ∧ (e = .operandMissing b ∨ e = .registerIndex b) := by
  match bytes with
  | [] => cases h; exact .inl ⟨rfl, rfl⟩
  | b :: tail =>
    simp only [decode] at h
    split at h
    next => exact .inr ⟨b, tail, rfl, decodeOperands_error h⟩
    next => cases h

end Sys2Proof

namespace Sys2Proof.Machine

/-- The decode phase finds an opcode byte exactly at an address of the array (R82). -/
theorem fetchBytes_head? (s : State) :
    s.fetchBytes.head? = if s.pc.toNat ≤ 255 then some (s.byteAt s.pc.toNat) else none := by
  by_cases h : s.pc.toNat ≤ 255
  · have h' : s.pc.toNat < Config.memSize := Nat.lt_succ_of_le h
    simp [State.fetchBytes, Memory.window, State.byteAt, h, h']
  · have h' : ¬ s.pc.toNat < Config.memSize := fun hlt => h (Nat.le_of_lt_succ hlt)
    simp [State.fetchBytes, Memory.window, h, h']

theorem fetchDecode_ok_iff {s : State} {i : Instr} :
    s.fetchDecode = .ok i ↔ ∃ rest, decode s.fetchBytes = .ok (i, rest) := by
  unfold State.fetchDecode
  split <;> simp_all

theorem fetchDecode_error_iff {s : State} {e : DecodeError} :
    s.fetchDecode = .error e ↔ decode s.fetchBytes = .error e := by
  unfold State.fetchDecode
  split <;> simp_all

/-- The opcode byte that a decoded instruction was read from is the first byte of its encoding. -/
theorem head?_encode_of_fetchDecode {s : State} {i : Instr} (h : s.fetchDecode = .ok i) :
    (encode i).head? = s.fetchBytes.head? := by
  obtain ⟨rest, hd⟩ := fetchDecode_ok_iff.mp h
  rw [(encode_append_of_decode hd).1]
  cases i <;> rfl

/-- All bytes of a decoded instruction are cells of the array (R82, R83). -/
theorem pc_add_length_le_of_fetchDecode {s : State} {i : Instr} (h : s.fetchDecode = .ok i) :
    s.pc.toNat + (encode i).length ≤ 256 := by
  obtain ⟨rest, hd⟩ := fetchDecode_ok_iff.mp h
  have hwindow : s.fetchBytes.length = min 3 (256 - s.pc.toNat) := Memory.window_length ..
  have hsplit : s.fetchBytes.length = (encode i).length + rest.length := by
    rw [(encode_append_of_decode hd).1, List.length_append]
  have hpos : 1 ≤ (encode i).length := by cases i <;> simp [encode]
  omega

theorem wellFormed_of_fetchDecode {s : State} {i : Instr} (h : s.fetchDecode = .ok i) : i.wellFormed = true := by
  obtain ⟨rest, hd⟩ := fetchDecode_ok_iff.mp h
  exact (encode_append_of_decode hd).2

/-- A decoded instruction's opcode byte is the byte at the program counter. -/
theorem byteAt_pc_of_fetchDecode {s : State} {i : Instr} (h : s.fetchDecode = .ok i) :
    s.pc.toNat ≤ 255 ∧ (encode i).head? = some (s.byteAt s.pc.toNat) := by
  have hlen := pc_add_length_le_of_fetchDecode h
  have hpos : 1 ≤ (encode i).length := by cases i <;> simp [encode]
  have hpc : s.pc.toNat ≤ 255 := by omega
  rw [head?_encode_of_fetchDecode h, fetchBytes_head?, if_pos hpc]
  exact ⟨hpc, rfl⟩

end Sys2Proof.Machine
end

section
/-! SUPPORT. What the execute phase of each instruction can do: it raises one fault, or it commits one state
(`exec_eq`). The facts about all instructions are facts about these two functions. -/

namespace Sys2Proof.Machine

@[simp] theorem setReg_byteAt (s : State) (r : Reg) (v : Byte) (a : Nat) :
    (s.setReg r v).byteAt a = s.byteAt a := rfl

/-- The state after the stack pointer's decrement, where that raises no fault (R110). -/
@[simp] def State.lowerSp (s : State) : State := s.setReg .sp (s.reg .sp - 1)

/-- The state after a byte is stored at the decremented stack pointer (R111, R121). -/
def State.pushByte (s : State) (v : Byte) : State :=
  { s.lowerSp with mem := s.mem.set (s.reg .sp - 1).toNat v }

@[simp] theorem pushByte_reg (s : State) (v : Byte) (q : Reg) : (s.pushByte v).reg q = s.lowerSp.reg q := rfl
@[simp] theorem pushByte_pc (s : State) (v : Byte) : (s.pushByte v).pc = s.pc := rfl
@[simp] theorem pushByte_fl (s : State) (v : Byte) : (s.pushByte v).fl = s.fl := rfl
@[simp] theorem pushByte_state (s : State) (v : Byte) : (s.pushByte v).state = s.state := rfl
@[simp] theorem pushByte_fault (s : State) (v : Byte) : (s.pushByte v).fault = s.fault := rfl
@[simp] theorem pushByte_mem (s : State) (v : Byte) :
    (s.pushByte v).mem = s.mem.set (s.reg .sp - 1).toNat v := rfl
@[simp] theorem pushByte_out (s : State) (v : Byte) : (s.pushByte v).out = s.out := rfl
@[simp] theorem pushByte_unk (s : State) (v : Byte) : (s.pushByte v).unk = s.unk := rfl
@[simp] theorem pushByte_ran (s : State) (v : Byte) : (s.pushByte v).ran = s.ran := rfl
@[simp] theorem pushByte_freeIx (s : State) (v : Byte) : (s.pushByte v).freeIx = s.freeIx := rfl

/-- The fault that the Operation of an instruction raises, if any (the "execute" entries of R164). -/
def State.execFault (s : State) : Instr → Option ErrorKind
  | .push _ => if s.reg .sp = 0 then some .stackError else none
  | .pop r => if (s.setReg r (s.byteAt (s.reg .sp).toNat)).reg .sp = 0 then some .stackError else none
  | .call _ =>
    if s.reg .sp = 0 then some .stackError
    else if Config.memSize ≤ s.returnAddress then some .memoryAccessError
    else none
  | .nop | .hlt | .ret | .prn _ | .jmp _ | .jeq _ | .jne _ | .ldi _ _ | .add _ _ | .mul _ _ | .cmp _ _ | .skip _ =>
    none

/-- The state that an instruction commits when its Operation raises no fault. -/
def State.commit (s : State) : Instr → State
  | .nop => s.selectPc .inc1
  | .hlt => s.halt.selectPc .hold
  | .ret => s.selectPc (.mem (s.byteAt (s.reg .sp).toNat))
  | .push r => (s.pushByte (s.lowerSp.reg r)).selectPc .inc2
  | .pop r => (s.setReg r (s.byteAt (s.reg .sp).toNat)).lowerSp.selectPc .inc2
  | .prn r => (s.emitOut (s.reg r)).selectPc .inc2
  | .call r => (s.pushByte (BitVec.ofNat 8 s.returnAddress)).selectPc (.reg (s.lowerSp.reg r))
  | .jmp r => s.selectPc (.reg (s.reg r))
  | .jeq r => s.selectPc (if s.flagE then .reg (s.reg r) else .inc2)
  | .jne r => s.selectPc (if s.flagE then .inc2 else .reg (s.reg r))
  | .ldi r v => (s.setReg r v).selectPc .inc3
  | .add _ _ => s.selectPc .inc3
  | .mul _ _ => s.selectPc .inc3
  | .cmp a b => ({ s with fl := compareFlags (s.reg a) (s.reg b) } : State).selectPc .inc3
  | .skip o => (s.emitUnknown o).selectPc .inc1

/-- The state the execute phase answers: the fault raised with the opcode byte of the instruction's row, or the
Operation's result. -/
def State.execResult (s : State) (i : Instr) : State :=
  match s.execFault i with
  | some k => s.raise k (encode i).head?
  | none => s.commit i

theorem execResult_of_fault {s : State} {i : Instr} {k : ErrorKind} (h : s.execFault i = some k) :
    s.execResult i = s.raise k (encode i).head? := by simp [State.execResult, h]

theorem execResult_of_no_fault {s : State} {i : Instr} (h : s.execFault i = none) :
    s.execResult i = s.commit i := by simp [State.execResult, h]

theorem execPush_eq (r : Reg) (s : State) : execPush r s = .next (s.execResult (.push r)) := by
  rcases decSp_cases s with ⟨h, hd⟩ | ⟨h, hd⟩
  · have hf : s.execFault (.push r) = some .stackError := if_pos h
    rw [execResult_of_fault hf]
    simp only [execPush, hd]
    rfl
  · have hf : s.execFault (.push r) = none := if_neg h
    rw [execResult_of_no_fault hf]
    simp only [execPush, hd, bind, Except.bind, memWrite_byte]
    rfl

theorem execPop_eq (r : Reg) (s : State) : execPop r s = .next (s.execResult (.pop r)) := by
  rcases decSp_cases (s.setReg r (s.byteAt (s.reg .sp).toNat)) with ⟨h, hd⟩ | ⟨h, hd⟩
  · have hf : s.execFault (.pop r) = some .stackError := if_pos h
    rw [execResult_of_fault hf]
    simp only [execPop, memRead_byte, bind, Except.bind, hd]
    rfl
  · have hf : s.execFault (.pop r) = none := if_neg h
    rw [execResult_of_no_fault hf]
    simp only [execPop, memRead_byte, bind, Except.bind, hd]
    rfl

theorem execCall_eq (r : Reg) (s : State) : execCall r s = .next (s.execResult (.call r)) := by
  rcases decSp_cases s with ⟨h, hd⟩ | ⟨h, hd⟩
  · have hf : s.execFault (.call r) = some .stackError := if_pos h
    rw [execResult_of_fault hf]
    simp only [execCall, hd]
    rfl
  · by_cases hra : Config.memSize ≤ s.returnAddress
    · have hf : s.execFault (.call r) = some .memoryAccessError := (if_neg h).trans (if_pos hra)
      rw [execResult_of_fault hf]
      simp only [execCall, hd, bind, Except.bind, if_pos hra]
      rfl
    · have hf : s.execFault (.call r) = none := (if_neg h).trans (if_neg hra)
      rw [execResult_of_no_fault hf]
      simp only [execCall, hd, bind, Except.bind, if_neg hra, memWrite_byte]
      rfl

theorem execRet_eq (s : State) : execRet s = .next (s.execResult .ret) := by
  simp only [execRet, memRead_byte]
  rfl

/-- The execute phase always answers a next state, and this is which. -/
theorem exec_eq (i : Instr) (s : State) : exec i s = .next (s.execResult i) := by
  cases i with
  | push r => exact execPush_eq r s
  | pop r => exact execPop_eq r s
  | call r => exact execCall_eq r s
  | ret => exact execRet_eq s
  | _ => rfl

/-- Everything the execute phase can do: raise the fault of the Operation, or commit its result. -/
theorem exec_cases {i : Instr} {s t : State} (h : exec i s = .next t) :
    (∃ k, s.execFault i = some k ∧ t = s.raise k (encode i).head?) ∨
    (s.execFault i = none ∧ t = s.commit i) := by
  rw [exec_eq] at h
  cases h
  cases hf : s.execFault i with
  | some k => exact .inl ⟨k, rfl, execResult_of_fault hf⟩
  | none => exact .inr ⟨rfl, execResult_of_no_fault hf⟩

theorem execFault_kind {s : State} {i : Instr} {k : ErrorKind} (h : s.execFault i = some k) :
    k = .stackError ∨ k = .memoryAccessError := by
  unfold State.execFault at h
  repeat' split at h
  all_goals simp_all

/-! What a committed instruction leaves unchanged. -/

@[simp] theorem commit_fault (s : State) (i : Instr) : (s.commit i).fault = s.fault := by cases i <;> rfl
@[simp] theorem commit_ran (s : State) (i : Instr) : (s.commit i).ran = s.ran := by cases i <;> rfl
@[simp] theorem commit_freeIx (s : State) (i : Instr) : (s.commit i).freeIx = s.freeIx := by cases i <;> rfl

theorem commit_state {i : Instr} (h : i ≠ .hlt) (s : State) : (s.commit i).state = s.state := by
  cases i
  case hlt => exact absurd rfl h
  all_goals rfl

theorem commit_fl {i : Instr} (h : ∀ a b, i ≠ .cmp a b) (s : State) : (s.commit i).fl = s.fl := by
  cases i
  case cmp a b => exact absurd rfl (h a b)
  all_goals rfl

theorem commit_out {i : Instr} (h : ∀ r, i ≠ .prn r) (s : State) : (s.commit i).out = s.out := by
  cases i
  case prn r => exact absurd rfl (h r)
  all_goals rfl

theorem commit_unk {i : Instr} (h : ∀ o, i ≠ .skip o) (s : State) : (s.commit i).unk = s.unk := by
  cases i
  case skip o => exact absurd rfl (h o)
  all_goals rfl

theorem commit_reg {i : Instr} {q : Reg} (h : writesReg i q = false) (s : State) :
    (s.commit i).reg q = s.reg q := by
  cases i
  case push r | call r =>
    have hq : q ≠ .sp := by simpa [writesReg] using h
    exact reg_setReg_other s _ hq
  case pop r =>
    obtain ⟨hsp, hr⟩ : q ≠ .sp ∧ q ≠ r := by simpa [writesReg] using h
    exact (reg_setReg_other _ _ hsp).trans (reg_setReg_other s _ hr)
  case ldi r v =>
    have hr : q ≠ r := by simpa [writesReg] using h
    exact reg_setReg_other s _ hr
  all_goals rfl

end Sys2Proof.Machine
end

section
/-! SUPPORT. Everything a cycle can do (R80): from RUNNING it raises one fault, or commits one instruction. -/

namespace Sys2Proof

/-- The kind of the fault that a rejected decode raises (R82, R83). -/
def DecodeError.kind : DecodeError → Machine.ErrorKind
  | .opcodeMissing => .memoryAccessError
  | .operandMissing _ => .memoryAccessError
  | .registerIndex _ => .registerIndexError

end Sys2Proof

namespace Sys2Proof.Machine

/-- The fault that the cycle of a RUNNING state raises, if any: the decode's first (R155). -/
def State.cycleFault (s : State) : Option ErrorKind :=
  match s.fetchDecode with
  | .ok i => s.execFault i
  | .error e => some e.kind

/-- A rejected decode records the opcode byte that was fetched, if one was. -/
theorem raiseDecode_eq_raise {s : State} {e : DecodeError} (h : s.fetchDecode = .error e) (u : State) :
    u.raiseDecode e = u.raise e.kind s.fetchBytes.head? := by
  rcases decode_error_cases (fetchDecode_error_iff.mp h) with ⟨hb, rfl⟩ | ⟨b, tail, hb, rfl | rfl⟩
  all_goals rw [hb]; rfl

/-- No cycle raises a LoadError, an UnknownOpcode or an UnsupportedALUOperation (R152, R154, R159). -/
theorem cycleFault_kind {s : State} {k : ErrorKind} (h : s.cycleFault = some k) :
    k = .stackError ∨ k = .memoryAccessError ∨ k = .registerIndexError := by
  unfold State.cycleFault at h
  split at h
  next i _ => exact (execFault_kind h).elim .inl (fun hk => .inr (.inl hk))
  next e _ => cases e <;> cases h <;> simp [DecodeError.kind]

theorem execFault_beginCycle (s : State) (i : Instr) : s.beginCycle.execFault i = s.execFault i := by
  cases i <;> rfl

/-- A step is defined exactly in RUNNING (R80, R89). -/
theorem step_next_iff (s : State) : (∃ t, step s = .next t) ↔ s.state = .running := by
  constructor
  · rintro ⟨t, h⟩
    cases hs : s.state with
    | running => rfl
    | halted | faulted => simp [step, hs] at h
  · intro hs
    rcases step_running hs with ⟨i, _, h⟩ | ⟨e, _, h⟩
    · exact ⟨_, h.trans (exec_eq i _)⟩
    · exact ⟨_, h⟩

/-- Everything a step can do: with the note that a cycle executes, the fault of the cycle is raised with the opcode byte
that was fetched, or the decoded instruction commits. -/
theorem step_cases {s t : State} (h : step s = .next t) :
    s.state = .running ∧
    ((∃ k, s.cycleFault = some k ∧ t = s.beginCycle.raise k s.fetchBytes.head?) ∨
     (∃ i, s.fetchDecode = .ok i ∧ s.execFault i = none ∧ t = s.beginCycle.commit i)) := by
  have hs := (step_next_iff s).mp ⟨t, h⟩
  refine ⟨hs, ?_⟩
  rcases step_running hs with ⟨i, hd, hstep⟩ | ⟨e, hd, hstep⟩
  · rcases exec_cases (hstep ▸ h) with ⟨k, hk, rfl⟩ | ⟨hk, rfl⟩
    · rw [execFault_beginCycle] at hk
      exact .inl ⟨k, by simp [State.cycleFault, hd, hk], by rw [head?_encode_of_fetchDecode hd]⟩
    · exact .inr ⟨i, hd, execFault_beginCycle s i ▸ hk, rfl⟩
  · rw [hstep] at h
    cases h
    exact .inl ⟨e.kind, by simp [State.cycleFault, hd], raiseDecode_eq_raise hd _⟩

end Sys2Proof.Machine
end

section
/-! SUPPORT. The invariant of a run: what a committed instruction keeps of it, and that each of the three things a cycle
does (the note, a fault, a commit) keeps it. -/

namespace Sys2Proof.Machine

/-- Every store is at a byte address, so the memory stays canonical. -/
theorem commit_mem_wf {s : State} (h : s.mem.wf = true) (i : Instr) : (s.commit i).mem.wf = true := by
  cases i
  case push | call => exact Memory.wf_set h (byte_lt_memSize _) _
  all_goals exact h

theorem toNat_add_le {pc : Pc} (n : Nat) (h : pc.toNat + n ≤ 256) : (pc + BitVec.ofNat 9 n).toNat ≤ 256 := by
  simp only [BitVec.toNat_add, BitVec.toNat_ofNat]
  omega

/-- An incrementer adds the instruction's length, and a target is a byte, so 256 is not exceeded (R16, R18). -/
theorem commit_pc_le {s : State} {i : Instr} (h : s.pc.toNat + (encode i).length ≤ 256) :
    (s.commit i).pc.toNat ≤ 256 := by
  have target (v : Byte) : (v.setWidth 9 : Pc).toNat ≤ 256 := (target_le v).trans (Nat.le_succ 255)
  cases i
  case hlt => exact (Nat.le_add_right ..).trans h
  case nop | skip => exact toNat_add_le 1 h
  case push | pop | prn => exact toNat_add_le 2 h
  case ldi | add | mul | cmp => exact toNat_add_le 3 h
  case jmp | call | ret => exact target _
  case jeq r =>
    simp only [State.commit, selectPc_pc]
    split
    · exact target _
    · exact toNat_add_le 2 h
  case jne r =>
    simp only [State.commit, selectPc_pc]
    split
    · exact toNat_add_le 2 h
    · exact target _

/-- The invariant's clause about the flag register (R20). -/
theorem commit_flags_one_hot {s : State}
    (h : s.flByte = 0x00 ∨ s.flByte = 0x01 ∨ s.flByte = 0x02 ∨ s.flByte = 0x04) (i : Instr) :
    (s.commit i).flByte = 0x00 ∨ (s.commit i).flByte = 0x01 ∨ (s.commit i).flByte = 0x02 ∨
      (s.commit i).flByte = 0x04 := by
  cases i
  case cmp a b =>
    have hfl : (s.commit (.cmp a b)).flByte = (compareFlags (s.reg a) (s.reg b)).setWidth 8 := rfl
    rw [hfl]
    rcases compareFlags_one_hot (s.reg a) (s.reg b) with hf | hf | hf
    all_goals rw [hf]; decide
  all_goals exact h

theorem commit_not_faulted {s : State} (h : s.state = .running) (i : Instr) : (s.commit i).state ≠ .faulted := by
  by_cases hi : i = .hlt
  · subst hi; exact nofun
  · rw [commit_state hi, h]; exact nofun

theorem eq_hlt_of_commit_halted {s : State} {i : Instr} (h : s.state = .running)
    (hc : (s.commit i).state = .halted) : i = .hlt := by
  by_contra hi
  rw [commit_state hi, h] at hc
  cases hc

/-- Only a skip records an event, and what it records is its own byte (R25, R86). -/
theorem commit_events {s : State} {i : Instr} {e : UnknownRecord} (h : e ∈ (s.commit i).unk) :
    e ∈ s.unk ∨ i = .skip e.opcode := by
  cases i
  case skip o =>
    rcases List.mem_append.mp h with h | h
    · exact .inl h
    · rw [List.mem_singleton.mp h]; exact .inr rfl
  all_goals exact .inl h

/-! The invariant, through the three things a cycle does. -/

theorem RunInvariant.fault_clear {s : State} (h : RunInvariant s) (hs : s.state = .running) :
    s.fault = FaultRecord.clear := by
  apply h.clear_when_none
  by_contra hk
  rw [h.latched_iff_faulted.mp hk] at hs
  cases hs

theorem RunInvariant.beginCycle {s : State} (h : RunInvariant s) : RunInvariant s.beginCycle :=
  { h with }

/-- The record that a fault of a cycle writes is the one the invariant speaks of (R157). -/
theorem RunInvariant.raise {s : State} {k : ErrorKind} (h : RunInvariant s) (hs : s.state = .running)
    (hk : k = .stackError ∨ k = .memoryAccessError ∨ k = .registerIndexError) :
    RunInvariant (s.raise k s.fetchBytes.head?) where
  memory_canonical := h.memory_canonical
  pc_range := h.pc_range
  flags_one_hot := h.flags_one_hot
  latched_iff_faulted := iff_of_true (by rcases hk with rfl | rfl | rfl <;> exact nofun) rfl
  unknown_never_latched := by rcases hk with rfl | rfl | rfl <;> exact nofun
  unsupported_never_raised := by rcases hk with rfl | rfl | rfl <;> exact nofun
  clear_when_none := by rcases hk with rfl | rfl | rfl <;> exact nofun
  fault_at_pc := fun _ _ => rfl
  fault_opcode_fetched := by
    rw [fetchBytes_head?]
    split
    next hpc => exact fun _ => ⟨hpc, rfl⟩
    next => exact nofun
  fault_opcode_zero := by
    rw [fetchBytes_head?]
    split
    next => exact nofun
    next => intro _; rw [raise_fault_opcode_none, h.fault_clear hs]; rfl
  halted_at_hlt := nofun
  events_unknown := h.events_unknown

/-- An instruction that was decoded at the program counter and commits keeps the invariant. -/
theorem RunInvariant.commit {s : State} {i : Instr} (h : RunInvariant s) (hs : s.state = .running)
    (hd : s.fetchDecode = .ok i) : RunInvariant (s.commit i) := by
  have hfault : (s.commit i).fault = FaultRecord.clear := (commit_fault s i).trans (h.fault_clear hs)
  have hstate : (s.commit i).state ≠ .faulted := commit_not_faulted hs i
  constructor
  case memory_canonical => exact commit_mem_wf h.memory_canonical i
  case pc_range => exact commit_pc_le (pc_add_length_le_of_fetchDecode hd)
  case flags_one_hot => exact commit_flags_one_hot h.flags_one_hot i
  case fault_at_pc => exact fun hf => absurd hf hstate
  case halted_at_hlt =>
    intro hh
    obtain rfl := eq_hlt_of_commit_halted hs hh
    obtain ⟨hpc, hbyte⟩ := byteAt_pc_of_fetchDecode hd
    exact ⟨hpc, (Option.some.inj hbyte).symm⟩
  case events_unknown =>
    intro e he
    rcases commit_events he with he | rfl
    · exact h.events_unknown e he
    · simpa [Instr.wellFormed] using wellFormed_of_fetchDecode hd
  all_goals rw [hfault]; simp [FaultRecord.clear, hstate]

/-- Reset puts every clause at its reset value (R30, R180). -/
theorem runInvariant_resetInput (s : State) : RunInvariant s.resetInput where
  memory_canonical := Memory.wf_nil
  pc_range := Nat.zero_le _
  flags_one_hot := .inl rfl
  latched_iff_faulted := by simp [State.resetInput, State.reset, FaultRecord.clear]
  unknown_never_latched := nofun
  unsupported_never_raised := nofun
  clear_when_none := fun _ => rfl
  fault_at_pc := nofun
  fault_opcode_fetched := nofun
  fault_opcode_zero := fun _ => rfl
  halted_at_hlt := nofun
  events_unknown := nofun

end Sys2Proof.Machine
end

section
/-! SUPPORT. What is in neither column of R14, and the flags, pass through the execute phase. -/

namespace Sys2Proof.Machine

theorem setReg_comm (s : State) {r q : Reg} (v w : Byte) (h : q ≠ r) :
    (s.setReg r v).setReg q w = (s.setReg q w).setReg r v := by
  simp [State.setReg, Regs.set_comm s.x v w h]

theorem pushByte_setReg (s : State) {q : Reg} (v b : Byte) (h : q ≠ .sp) :
    (s.setReg q v).pushByte b = (s.pushByte b).setReg q v := by
  have hsp : (s.setReg q v).reg .sp = s.reg .sp := reg_setReg_other s v h.symm
  simp only [State.pushByte, State.lowerSp, hsp, setReg_comm s _ _ h.symm]
  rfl

theorem execFault_setReg {i : Instr} {q : Reg} (h : readsReg i q = false) (s : State) (v : Byte) :
    (s.setReg q v).execFault i = s.execFault i := by
  cases i
  case push r =>
    obtain ⟨hsp, -⟩ : q ≠ .sp ∧ q ≠ r := by simpa [readsReg] using h
    simp only [State.execFault, reg_setReg_other s v hsp.symm]
  case call r =>
    obtain ⟨hsp, -⟩ : q ≠ .sp ∧ q ≠ r := by simpa [readsReg] using h
    simp only [State.execFault, reg_setReg_other s v hsp.symm]
    rfl
  case pop r =>
    have hq : q ≠ .sp := by simpa [readsReg] using h
    simp only [State.execFault, reg_setReg, if_neg hq.symm, setReg_byteAt]
  all_goals rfl

theorem commit_setReg {i : Instr} {q : Reg} (hr : readsReg i q = false) (hw : writesReg i q = false)
    (s : State) (v : Byte) : (s.setReg q v).commit i = (s.commit i).setReg q v := by
  have same {r : Reg} (h : q ≠ r) : (s.setReg q v).reg r = s.reg r := reg_setReg_other s v h.symm
  cases i
  case ret =>
    have hq : q ≠ .sp := by simpa [readsReg] using hr
    simp only [State.commit, same hq]
    rfl
  case push r | call r =>
    obtain ⟨hsp, hq⟩ : q ≠ .sp ∧ q ≠ r := by simpa [readsReg] using hr
    simp only [State.commit, State.lowerSp, same hsp, pushByte_setReg s v _ hsp, reg_setReg, if_neg (Ne.symm hq)]
    rfl
  case pop r =>
    obtain ⟨hsp, hq⟩ : q ≠ .sp ∧ q ≠ r := by simpa [writesReg] using hw
    simp only [State.commit, State.lowerSp, same hsp, setReg_byteAt, setReg_comm s _ _ (Ne.symm hq),
      reg_setReg_other _ v hsp.symm, setReg_comm _ _ _ hsp.symm]
    rfl
  case prn r | jmp r | jeq r | jne r =>
    have hq : q ≠ r := by simpa [readsReg] using hr
    simp only [State.commit, same hq]
    rfl
  case ldi r w =>
    have hq : q ≠ r := by simpa [writesReg] using hw
    simp only [State.commit, setReg_comm s v w (Ne.symm hq)]
    rfl
  case cmp a b =>
    obtain ⟨ha, hb⟩ : q ≠ a ∧ q ≠ b := by simpa [readsReg] using hr
    simp only [State.commit, same ha, same hb]
    rfl
  all_goals rfl

theorem execResult_setReg {i : Instr} {q : Reg} (hr : readsReg i q = false) (hw : writesReg i q = false)
    (s : State) (v : Byte) : (s.setReg q v).execResult i = (s.execResult i).setReg q v := by
  unfold State.execResult
  rw [execFault_setReg hr]
  cases s.execFault i with
  | some k => rfl
  | none => exact commit_setReg hr hw s v

theorem execFault_fl (s : State) (f : BitVec 3) (i : Instr) :
    ({ s with fl := f } : State).execFault i = s.execFault i := by
  cases i <;> rfl

/-- A flag value that no branch tells from the one there is carried along. -/
theorem commit_fl_unread {i : Instr} {s : State} {f : BitVec 3} (hcmp : ∀ a b, i ≠ .cmp a b)
    (hf : f.getLsbD 0 = s.fl.getLsbD 0 ∨ ((∀ r, i ≠ .jeq r) ∧ (∀ r, i ≠ .jne r))) :
    ({ s with fl := f } : State).commit i = { s.commit i with fl := f } := by
  cases i
  case cmp a b => exact absurd rfl (hcmp a b)
  case jeq r =>
    have hE : ({ s with fl := f } : State).flagE = s.flagE := hf.resolve_right fun hno => hno.1 r rfl
    simp only [State.commit, hE]
    rfl
  case jne r =>
    have hE : ({ s with fl := f } : State).flagE = s.flagE := hf.resolve_right fun hno => hno.2 r rfl
    simp only [State.commit, hE]
    rfl
  all_goals rfl

theorem execResult_fl_unread {i : Instr} {s : State} {f : BitVec 3} (hcmp : ∀ a b, i ≠ .cmp a b)
    (hf : f.getLsbD 0 = s.fl.getLsbD 0 ∨ ((∀ r, i ≠ .jeq r) ∧ (∀ r, i ≠ .jne r))) :
    ({ s with fl := f } : State).execResult i = { s.execResult i with fl := f } := by
  unfold State.execResult
  rw [execFault_fl]
  cases s.execFault i with
  | some k => rfl
  | none => exact commit_fl_unread hcmp hf

end Sys2Proof.Machine
end

section
/-! SUPPORT. The streams grow by what the stream ports carry. -/

namespace Sys2Proof.Machine

/-- What the two streams of `t` hold over those of `s`: the transaction of one cycle, the address of an event being the
program counter of `s` (R24, R25). -/
def State.StreamsGrowBy (s t : State) : Option StreamTransfer → Prop
  | none => t.out = s.out ∧ t.unk = s.unk
  | some (.out v) => t.out = s.out ++ [v] ∧ t.unk = s.unk
  | some (.unknown a o) => t.out = s.out ∧ t.unk = s.unk ++ [{ addr := a, opcode := o }] ∧ a.toNat = s.pc.toNat

theorem commit_streamsGrowBy {s : State} (hpc : s.pc.toNat ≤ 255) (i : Instr) :
    s.StreamsGrowBy (s.commit i) (s.streamTransfer i) := by
  cases i
  case skip o =>
    refine ⟨rfl, rfl, ?_⟩
    rw [BitVec.toNat_setWidth]
    omega
  all_goals exact ⟨rfl, rfl⟩

/-- An instruction that can fault emits nothing. -/
theorem streamTransfer_of_execFault {s : State} {i : Instr} {k : ErrorKind} (h : s.execFault i = some k) :
    s.streamTransfer i = none := by
  cases i
  case prn | skip => cases h
  all_goals rfl

theorem cycleEmits_of_cycleFault {s : State} {k : ErrorKind} (h : s.cycleFault = some k) : s.cycleEmits = none := by
  cases hd : s.fetchDecode with
  | ok i =>
    simp only [State.cycleFault, hd] at h
    simp only [State.cycleEmits, hd]
    exact streamTransfer_of_execFault h
  | error e => simp only [State.cycleEmits, hd]

theorem step_streamsGrowBy {s t : State} (h : step s = .next t) : s.StreamsGrowBy t s.cycleEmits := by
  obtain ⟨-, ⟨k, hk, rfl⟩ | ⟨i, hd, -, rfl⟩⟩ := step_cases h
  · rw [cycleEmits_of_cycleFault hk]
    exact ⟨rfl, rfl⟩
  · have hemits : s.cycleEmits = s.beginCycle.streamTransfer i := by
      simp only [State.cycleEmits, hd]
      cases i <;> rfl
    rw [hemits]
    exact commit_streamsGrowBy (s := s.beginCycle) (byteAt_pc_of_fetchDecode hd).1 i

end Sys2Proof.Machine
end

section
/-! The statements of the family 10_state.md: the invariant, the frames, the status and stream ports. -/

namespace Sys2Proof.Machine

/-- Settles O39: a cycle from RUNNING raises one fault or commits one decoded instruction, and each keeps the
invariant. -/
theorem stepKeepsRunInvariant : Obligations.StepKeepsRunInvariant := by
  intro s t h hstep
  obtain ⟨hs, ⟨k, hk, rfl⟩ | ⟨i, hd, -, rfl⟩⟩ := step_cases hstep
  · exact h.beginCycle.raise hs (cycleFault_kind hk)
  · exact h.beginCycle.commit hs hd

/-- Settles O30: a fault changes no register, and a committed instruction only those of the writes column. -/
theorem onlyListedRegistersChange : Obligations.OnlyListedRegistersChange := by
  intro i s t q h hw
  rcases exec_cases h with ⟨k, -, rfl⟩ | ⟨-, rfl⟩
  · rfl
  · exact commit_reg hw s

/-- Settles O31: setting such a register commutes with the execute phase. -/
theorem unlistedRegistersHaveNoInfluence : Obligations.UnlistedRegistersHaveNoInfluence := by
  intro i s q v hr hw
  exact ⟨s.execResult i, exec_eq i s, by rw [exec_eq, execResult_setReg hr hw]⟩

/-- Settles O32: no fault and no commit but CMP's writes the flags, and setting them commutes with the execute phase
where no branch tells the difference. -/
theorem flagsWrittenByCmpReadByBranches : Obligations.FlagsWrittenByCmpReadByBranches := by
  refine ⟨?_, ?_, ?_⟩
  · intro i s t h hcmp
    rcases exec_cases h with ⟨k, -, rfl⟩ | ⟨-, rfl⟩
    · rfl
    · exact commit_fl hcmp s
  · intro a b s f
    rfl
  · intro i s f hcmp hf
    exact ⟨s.execResult i, exec_eq i s, by rw [exec_eq, execResult_fl_unread hcmp hf]⟩

/-- Settles O34: a fault changes the control state and the record alone; a committed instruction changes the stream or
the control state of its row. -/
theorem streamsAndControlChangeOnlyAsListed : Obligations.StreamsAndControlChangeOnlyAsListed := by
  intro i s t h
  rcases exec_cases h with ⟨k, -, rfl⟩ | ⟨-, rfl⟩
  · exact ⟨fun _ => rfl, fun _ => rfl, .inr (.inr rfl), fun hs => absurd rfl hs, rfl, rfl⟩
  · refine ⟨fun hp => commit_out hp s, fun hk => commit_unk hk s, ?_, fun _ => commit_fault s i, commit_ran s i,
      commit_freeIx s i⟩
    by_cases hi : i = .hlt
    · subst hi; exact .inr (.inl ⟨rfl, rfl⟩)
    · exact .inl (commit_state hi s)

/-- Settles O52: a cycle that faults emits nothing, and a committed instruction appends what its port carries. -/
theorem streamPortsAccountForTheCycle : Obligations.StreamPortsAccountForTheCycle := by
  intro s t _ h
  have hgrow := step_streamsGrowBy h
  revert hgrow
  rcases s.cycleEmits with _ | ⟨v⟩ | ⟨a, o⟩ <;> exact id

/-- Settles O40: the state after reset is the state it is reset to again. -/
theorem resetHasRunInvariant : Obligations.ResetHasRunInvariant :=
  ⟨runInvariant_resetInput State.reset, runInvariant_resetInput⟩

/-- Settles O50, by the three control states. -/
theorem exactlyOneStatusPort : Obligations.ExactlyOneStatusPort := by
  intro s
  rw [step_next_iff]
  cases hs : s.state <;> simp [State.statusPorts, hs]

end Sys2Proof.Machine
end

section
/-! SUPPORT. The execute phase changes memory by the data access of its instruction, and by nothing else. -/

namespace Sys2Proof.Machine

theorem raiseDecode_mem (s : State) (e : DecodeError) : (s.raiseDecode e).mem = s.mem := by cases e <;> rfl

theorem dataTransfers_beginCycle (s : State) (i : Instr) : s.beginCycle.dataTransfers i = s.dataTransfers i := by
  cases i <;> rfl

/-- The data access of PUSH, the operand register read after the decrement (R111). -/
theorem dataTransfers_push (r : Reg) (s : State) :
    s.dataTransfers (.push r) =
      if s.reg .sp = 0 then [] else [.write (s.reg .sp - 1) (if r = .r7 then s.reg .sp - 1 else s.reg r)] := by
  rw [← reg_setReg]
  rfl

/-- PUSH and CALL access no data when the decrement raises StackError (R110). -/
theorem dataTransfers_of_sp_zero {s : State} {i : Instr} {r : Reg} (hi : i = .push r ∨ i = .call r)
    (h : s.reg .sp = 0) : s.dataTransfers i = [] := by
  rcases hi with rfl | rfl
  · exact if_pos h
  · exact if_pos (.inl h)

/-- The memory after the execute phase: a fault of PUSH or CALL comes before the store, and one of POP after a load. -/
theorem execResult_mem (s : State) (i : Instr) :
    (s.execResult i).mem = (s.dataTransfers i).foldl Memory.applyTransfer s.mem := by
  cases i
  case push r =>
    by_cases hsp : s.reg .sp = 0
    · have hf : s.execFault (.push r) = some .stackError := if_pos hsp
      rw [execResult_of_fault hf, dataTransfers_of_sp_zero (.inl rfl) hsp]
      rfl
    · have hf : s.execFault (.push r) = none := if_neg hsp
      rw [execResult_of_no_fault hf, State.dataTransfers, if_neg hsp]
      rfl
  case call r =>
    by_cases hsp : s.reg .sp = 0
    · have hf : s.execFault (.call r) = some .stackError := if_pos hsp
      rw [execResult_of_fault hf, dataTransfers_of_sp_zero (.inr rfl) hsp]
      rfl
    · by_cases hra : Config.memSize ≤ s.returnAddress
      · have hf : s.execFault (.call r) = some .memoryAccessError := (if_neg hsp).trans (if_pos hra)
        rw [execResult_of_fault hf, State.dataTransfers, if_pos (.inr hra)]
        rfl
      · have hf : s.execFault (.call r) = none := (if_neg hsp).trans (if_neg hra)
        rw [execResult_of_no_fault hf, State.dataTransfers, if_neg (not_or.mpr ⟨hsp, hra⟩)]
        rfl
  case pop r =>
    unfold State.execResult
    cases s.execFault (.pop r) <;> rfl
  all_goals rfl

theorem exec_mem {i : Instr} {s t : State} (h : exec i s = .next t) :
    t.mem = (s.dataTransfers i).foldl Memory.applyTransfer s.mem := by
  rw [exec_eq] at h
  cases h
  exact execResult_mem s i

theorem foldl_dataTransfers_of_no_store {i : Instr} (hpush : ∀ r, i ≠ .push r) (hcall : ∀ r, i ≠ .call r)
    (s : State) : (s.dataTransfers i).foldl Memory.applyTransfer s.mem = s.mem := by
  cases i
  case push r => exact absurd rfl (hpush r)
  case call r => exact absurd rfl (hcall r)
  all_goals rfl

/-- The data access of an instruction leaves every cell alone but the one at the decremented stack pointer. -/
theorem get_foldl_dataTransfers_other {s : State} {a : Nat} (h : a ≠ (s.reg .sp - 1).toNat) (i : Instr) :
    Memory.get ((s.dataTransfers i).foldl Memory.applyTransfer s.mem) a = s.byteAt a := by
  cases i
  case push | call =>
    simp only [State.dataTransfers]
    split
    · rfl
    · exact Memory.get_set_other s.mem _ a _ h
  all_goals rfl

end Sys2Proof.Machine
end

section
/-! SUPPORT. The fetch phase reads a run of cells at ascending addresses (R48), and a read changes no memory. -/

namespace Sys2Proof.Machine

theorem specOperandCount_known (o : Op) : specOperandCount o.byte = o.operands := by cases o <;> decide

theorem specOperandCount_unknown {b : Byte} (h : Op.ofByte b = none) : specOperandCount b = 0 := by
  have known : ∀ c ∈ specOpcodeBytes, Op.ofByte c ≠ none := by decide
  have unlisted (l : List Byte) (hl : l ⊆ specOpcodeBytes) : b ∉ l := fun hb => known b (hl hb) h
  rw [specOperandCount, if_neg (unlisted _ (by decide)), if_neg (unlisted _ (by decide))]

/-- The reads of `n` cells from `a` upward. -/
def State.ascendingReads (s : State) (a n : Nat) : List MemTransfer :=
  (List.range n).map fun k => .read (BitVec.ofNat 8 (a + k)) (s.byteAt (a + k))

theorem ascendingReads_succ (s : State) (a n : Nat) :
    s.ascendingReads a (n + 1) = .read (BitVec.ofNat 8 a) (s.byteAt a) :: s.ascendingReads (a + 1) n := by
  simp [State.ascendingReads, List.range_succ_eq_map, Nat.add_right_comm, ← Nat.add_assoc]

theorem foldl_ascendingReads (s : State) (a n : Nat) (m : Memory) :
    (s.ascendingReads a n).foldl Memory.applyTransfer m = m := by
  rw [State.ascendingReads, List.foldl_map]
  exact List.foldl_fixed' (fun _ => rfl) _

theorem readTransfer_of_lt {s : State} {a : Nat} (h : a < Config.memSize) :
    s.readTransfer a = [.read (BitVec.ofNat 8 a) (s.byteAt a)] := if_pos h

theorem operandTransfers_eq (s : State) (n a : Nat) :
    s.operandTransfers n a = s.ascendingReads a (min n (256 - a)) := by
  induction n generalizing a with
  | zero => simp [State.operandTransfers, State.ascendingReads]
  | succ n ih =>
    by_cases ha : a < 256
    · have hcount : min (n + 1) (256 - a) = min n (256 - (a + 1)) + 1 := by omega
      rw [hcount, ascendingReads_succ, ← ih, State.operandTransfers, if_pos ha, readTransfer_of_lt ha]
      rfl
    · have hcount : min (n + 1) (256 - a) = 0 := by omega
      rw [hcount, State.operandTransfers, if_neg ha]
      rfl

/-- With an opcode byte to fetch, its read is followed by those of its operands. -/
theorem fetchTransfers_eq_cons {s : State} (h : s.pc.toNat ≤ 255) :
    s.fetchTransfers = .read (BitVec.ofNat 8 s.pc.toNat) (s.byteAt s.pc.toNat) ::
      s.operandTransfers (specOperandCount (s.byteAt s.pc.toNat)) (s.pc.toNat + 1) := by
  obtain ⟨tail, hb⟩ := List.head?_eq_some_iff.mp ((fetchBytes_head? s).trans (if_pos h))
  simp only [State.fetchTransfers, hb, readTransfer_of_lt (Nat.lt_succ_of_le h)]
  cases ho : Op.ofByte (s.byteAt s.pc.toNat) with
  | some o => rw [← Op.byte_of_ofByte ho, specOperandCount_known]; rfl
  | none => rw [specOperandCount_unknown ho]; rfl

theorem fetchTransfers_eq_ascendingReads {s : State} (h : s.pc.toNat ≤ 255) :
    s.fetchTransfers = s.ascendingReads s.pc.toNat
      (min (1 + specOperandCount (s.byteAt s.pc.toNat)) (256 - s.pc.toNat)) := by
  have hcount (n : Nat) : min (1 + n) (256 - s.pc.toNat) = min n (256 - (s.pc.toNat + 1)) + 1 := by omega
  rw [hcount, ascendingReads_succ, ← operandTransfers_eq, fetchTransfers_eq_cons h]

theorem fetchTransfers_eq_nil {s : State} (h : 255 < s.pc.toNat) : s.fetchTransfers = [] := by
  have hpc : ¬ s.pc.toNat ≤ 255 := Nat.not_le_of_lt h
  have hread : s.readTransfer s.pc.toNat = [] := if_neg (Nat.not_lt_of_le h)
  have hbytes : s.fetchBytes = [] := List.head?_eq_none_iff.mp ((fetchBytes_head? s).trans (if_neg hpc))
  simp only [State.fetchTransfers, hread, hbytes, List.append_nil]

theorem foldl_fetchTransfers (s : State) (m : Memory) : s.fetchTransfers.foldl Memory.applyTransfer m = m := by
  by_cases h : s.pc.toNat ≤ 255
  · rw [fetchTransfers_eq_ascendingReads h, foldl_ascendingReads]
  · rw [fetchTransfers_eq_nil (Nat.lt_of_not_le h), List.foldl_nil]

theorem cycleTransfers_of_ok {s : State} {i : Instr} (h : s.fetchDecode = .ok i) :
    s.cycleTransfers = s.fetchTransfers ++ s.dataTransfers i := by
  simp only [State.cycleTransfers, h]

theorem cycleTransfers_of_error {s : State} {e : DecodeError} (h : s.fetchDecode = .error e) :
    s.cycleTransfers = s.fetchTransfers := by
  simp only [State.cycleTransfers, h, List.append_nil]

/-- A cycle leaves the memory that its transactions make: the fetch phase only reads, and a rejected decode has no data
access. -/
theorem step_mem {s t : State} (hs : s.state = .running) (h : step s = .next t) :
    t.mem = s.cycleTransfers.foldl Memory.applyTransfer s.mem := by
  rcases step_running hs with ⟨i, hd, hstep⟩ | ⟨e, hd, hstep⟩
  · rw [cycleTransfers_of_ok hd, List.foldl_append, foldl_fetchTransfers, exec_mem (hstep ▸ h),
      dataTransfers_beginCycle]
    rfl
  · rw [hstep] at h
    cases h
    rw [cycleTransfers_of_error hd, foldl_fetchTransfers, raiseDecode_mem]
    rfl

end Sys2Proof.Machine
end

section
/-! The statements of the family 20_memory.md: the frame of memory, a pushed byte as an opcode, the memory port. -/

namespace Sys2Proof.Machine

/-- Settles O33: the execute phase changes memory by its data access alone, which is a store for PUSH and CALL only. -/
theorem onlyTheStackStoreChangesMemory : Obligations.OnlyTheStackStoreChangesMemory := by
  refine ⟨?_, ?_⟩
  · intro i s t h hpush hcall a
    rw [State.byteAt, exec_mem h, foldl_dataTransfers_of_no_store hpush hcall]
    rfl
  · intro i r s t hi h
    rcases decSp_cases s with ⟨hsp, hd⟩ | ⟨hsp, hd⟩
    · refine ⟨fun s1 addr hok => absurd (hd.symm.trans hok) nofun, fun _ _ a => ?_⟩
      rw [State.byteAt, exec_mem h, dataTransfers_of_sp_zero hi hsp]
      rfl
    · refine ⟨fun s1 addr hok haddr a ha => ?_, fun k herr => absurd (hd.symm.trans herr) nofun⟩
      obtain rfl : s.lowerSp = s1 := Except.ok.inj (hd.symm.trans hok)
      have hother : a ≠ (s.reg .sp - 1).toNat := by simpa [haddr] using ha
      rw [State.byteAt, exec_mem h, get_foldl_dataTransfers_other hother]

/-- Settles O35: the fetch reads the cell that PUSH wrote, and a canonical memory gives back what was written. -/
theorem pushedByteIsFetched : Obligations.PushedByteIsFetched := by
  intro r s t u hwf hsp h hmem hpc
  have hcell : u.pc.toNat = (s.reg .sp - 1).toNat := by rw [hpc, BitVec.toNat_setWidth_of_le (by decide)]
  have hpc_le : u.pc.toNat ≤ 255 := hpc ▸ target_le _
  rw [fetchBytes_head?, if_pos hpc_le, hcell, State.byteAt, hmem, exec_mem h, dataTransfers_push, if_neg hsp]
  exact congrArg some (Memory.get_set_self hwf _ _)

/-- Settles O51: the memory of a cycle by `step_mem`, the fetch phase as a run of reads, and the data access of each
instruction. -/
theorem memoryPortAccountsForTheCycle : Obligations.MemoryPortAccountsForTheCycle := by
  refine ⟨fun _ _ => step_mem, fun _ => fetchTransfers_eq_ascendingReads, fun _ => fetchTransfers_eq_nil,
    fun _ _ rest h => cycleTransfers_of_ok (fetchDecode_ok_iff.mpr ⟨rest, h⟩),
    fun _ _ h => cycleTransfers_of_error (fetchDecode_error_iff.mpr h), dataTransfers_push, fun _ _ => rfl, ?_, ?_⟩
  · rintro i s (⟨r, rfl⟩ | rfl) <;> rfl
  · intro i s hno hret
    cases i
    case push r => exact absurd rfl (hno r).1
    case call r => exact absurd rfl (hno r).2.1
    case pop r => exact absurd rfl (hno r).2.2
    case ret => exact absurd rfl hret
    all_goals rfl

end Sys2Proof.Machine
end

section
/-! SUPPORT. What the decoder makes of an encoding, and which bytes it skips (R64, R67). -/

namespace Sys2Proof

/-- After a known opcode byte the decoder reads the operands of that row's format (R60, R64). -/
theorem decode_opByte_cons (o : Op) (bytes : List Byte) :
    decode (o.byte :: bytes) = decodeOperands o.byte o.shape bytes := by
  simp [decode]

/-- The decoder skips exactly the bytes it finds no row for (R67, R86). -/
theorem decode_eq_skip_iff {b : Byte} {rest : List Byte} :
    decode (b :: rest) = .ok (.skip b, rest) ↔ Op.ofByte b = none := by
  constructor
  · intro h
    obtain ⟨-, hwf⟩ := encode_append_of_decode h
    exact Option.isNone_iff_eq_none.mp hwf
  · intro h
    simp [decode, h]

/-- The decoder reads a well-formed instruction's encoding back, whatever follows it (R60 to R64, R67). -/
theorem decode_encode_append {i : Instr} (rest : List Byte) (hwf : i.wellFormed = true) :
    decode (encode i ++ rest) = .ok (i, rest) := by
  cases i
  case skip o => exact decode_eq_skip_iff.mpr (Option.isNone_iff_eq_none.mp hwf)
  all_goals refine (decode_opByte_cons _ _).trans ?_
  case nop | hlt | ret => exact decodeOperands_z_iff.mpr ⟨rfl, rfl⟩
  case push r | pop r | prn r | call r | jmp r | jeq r | jne r =>
    exact decodeOperands_r_iff.mpr ⟨r, rfl, rfl⟩
  case ldi r v => exact decodeOperands_ri_iff.mpr ⟨r, v, rfl, rfl⟩
  case add a b | mul a b | cmp a b => exact decodeOperands_rr_iff.mpr ⟨a, b, rfl, rfl⟩

/-- The spec's list of opcode bytes is the model's opcode map (R64). -/
theorem specOpcodeBytes_eq_map_byte : Machine.specOpcodeBytes = Op.all.map Op.byte := rfl

theorem Op.ofByte_eq_none_iff_not_mem {b : Byte} : Op.ofByte b = none ↔ b ∉ Machine.specOpcodeBytes := by
  simp [Op.ofByte, specOpcodeBytes_eq_map_byte, List.find?_eq_none]

/-- The numbers below 256 whose byte is in the spec's list are the list's fourteen bytes, each once. -/
theorem filter_mem_specOpcodeBytes_perm :
    ((List.range 256).filter fun n => decide (BitVec.ofNat 8 n ∈ Machine.specOpcodeBytes)).Perm
      (Machine.specOpcodeBytes.map BitVec.toNat) := by
  have hnodup : (Machine.specOpcodeBytes.map BitVec.toNat).Nodup := by decide
  refine (List.perm_ext_iff_of_nodup (List.nodup_range.filter _) hnodup).mpr fun n => ?_
  simp only [List.mem_filter, List.mem_range, decide_eq_true_eq, List.mem_map]
  constructor
  · rintro ⟨hn, hmem⟩
    exact ⟨_, hmem, Nat.mod_eq_of_lt hn⟩
  · rintro ⟨b, hb, rfl⟩
    exact ⟨b.isLt, by simpa using hb⟩

/-- 256 byte values without the fourteen of the table (R64). -/
theorem length_filter_not_mem_specOpcodeBytes :
    ((List.range 256).filter fun n => decide (BitVec.ofNat 8 n ∉ Machine.specOpcodeBytes)).length = 242 := by
  have hlisted : ((List.range 256).filter fun n => decide (BitVec.ofNat 8 n ∈ Machine.specOpcodeBytes)).length = 14 :=
    filter_mem_specOpcodeBytes_perm.length_eq
  have hsplit := List.length_eq_length_filter_add (l := List.range 256)
    fun n => decide (BitVec.ofNat 8 n ∈ Machine.specOpcodeBytes)
  simp only [List.length_range, hlisted, ← decide_not] at hsplit
  omega

end Sys2Proof
end

section
/-! The statements of the family 30_encoding.md: the round trip both ways, one word of each row, the skipped bytes. -/

namespace Sys2Proof

/-- Settles O1: the operands of each format read back, and a skip's byte has no row. -/
theorem decodeOfEncodeIsTheInstruction : Obligations.DecodeOfEncodeIsTheInstruction :=
  fun _ rest hwf => decode_encode_append rest hwf

/-- Settles O2: the decoder accepts nothing but encodings of well-formed instructions. -/
theorem decodedBytesAreTheEncoding : Obligations.DecodedBytesAreTheEncoding :=
  fun _ _ _ h => encode_append_of_decode h

/-- Settles O4: the decoder skips a byte exactly when its map has no row for it, and the map's bytes are the spec's. -/
theorem unlistedBytesAreSkipped : Obligations.UnlistedBytesAreSkipped :=
  ⟨fun _ _ => decode_eq_skip_iff.trans Op.ofByte_eq_none_iff_not_mem, length_filter_not_mem_specOpcodeBytes⟩

/-- Settles O3: each word is the encoding of its instruction, which the decoder reads back. -/
theorem specWordsDecode : Obligations.SpecWordsDecode := by
  have reads (i : Instr) (hwf : i.wellFormed = true) : decode (encode i) = .ok (i, []) := by
    simpa using decode_encode_append [] hwf
  exact ⟨reads .nop rfl, reads .hlt rfl, reads .ret rfl, reads (.push .r1) rfl, reads (.pop .r2) rfl,
    reads (.prn .r3) rfl, reads (.call .r4) rfl, reads (.jmp .r5) rfl, reads (.jeq .r6) rfl, reads (.jne .r7) rfl,
    reads (.ldi .r3 0xCA) rfl, reads (.add .r1 .r2) rfl, reads (.mul .r3 .r4) rfl, reads (.cmp .r5 .r6) rfl,
    reads (.skip 0xFF) rfl⟩

end Sys2Proof
end

section
/-! SUPPORT. What the operand part of the decode phase rejects, format by format (R62, R83, R155). -/

namespace Sys2Proof

/-- How many of a format's operand bytes are register indices, the first ones: the immediate of RI is none (R62, R63). -/
def Shape.indices : Shape → Nat
  | .z _ => 0
  | .r _ => 1
  | .rr _ => 2
  | .ri _ => 1

theorem Shape.indices_le_operands (sh : Shape) : sh.indices ≤ sh.operands := by
  cases sh <;> simp [Shape.indices, Shape.operands]

theorem Op.operands_le_two (o : Op) : o.operands ≤ 2 := by cases o <;> decide

/-- Every format with an operand begins with an index (R60). -/
theorem Op.indices_pos_iff (o : Op) : 0 < o.shape.indices ↔ 1 ≤ o.operands := by cases o <;> decide

/-- The rows of format RR (R64). -/
theorem Op.one_lt_indices_iff (o : Op) : 1 < o.shape.indices ↔ o = .add ∨ o = .mul ∨ o = .cmp := by
  cases o <;> decide

/-- Fewer bytes than the format has operands: the missing one is the fault, whatever the bytes are (R83). -/
theorem decodeOperands_operandMissing {o : Byte} {sh : Shape} {bytes : List Byte}
    (h : bytes.length < sh.operands) : decodeOperands o sh bytes = .error (.operandMissing o) := by
  match sh, bytes with
  | .r _, [] | .rr _, [] | .rr _, [_] | .ri _, [] | .ri _, [_] => rfl
  | .z _, _ => exact absurd h (Nat.not_lt_zero _)
  | .r _, _ :: _ => exact absurd h (by simp [Shape.operands])
  | .rr _, _ :: _ :: _ | .ri _, _ :: _ :: _ => exact absurd h (by simp [Shape.operands])

/-- All operand bytes are there, and one of the indices is above 7 (R62, R83). -/
theorem decodeOperands_registerIndex {o b : Byte} {sh : Shape} {bytes : List Byte} {k : Nat}
    (hlen : sh.operands ≤ bytes.length) (hk : k < sh.indices) (hget : bytes[k]? = some b) (hb : 7 < b.toNat) :
    decodeOperands o sh bytes = .error (.registerIndex o) := by
  have hnone : Reg.ofByte b = none := (Reg.ofByte_eq_none_iff b).mpr hb
  match sh, bytes, k with
  | .r _, a :: _, 0 | .rr _, a :: _ :: _, 0 | .ri _, a :: _ :: _, 0 =>
    obtain rfl : a = b := Option.some.inj hget
    simp only [decodeOperands, hnone]
  | .rr _, a :: c :: _, 1 =>
    obtain rfl : c = b := Option.some.inj hget
    cases ha : Reg.ofByte a <;> simp only [decodeOperands, ha, hnone]

theorem length_encode_le (i : Instr) : (encode i).length ≤ Config.maxInstrBytes := by
  cases i <;> exact Nat.le_of_ble_eq_true rfl

end Sys2Proof
end

section
/-! SUPPORT. The bytes that the fetch and decode phases look at, and the step that each answer of the decode phase
makes (R80 to R84). -/

namespace Sys2Proof.Machine

/-- With no cell at the program counter there is no byte to decode (R82). -/
theorem fetchBytes_eq_nil {s : State} (h : 255 < s.pc.toNat) : s.fetchBytes = [] :=
  List.head?_eq_none_iff.mp ((fetchBytes_head? s).trans (if_neg (Nat.not_le_of_lt h)))

/-- The bytes after the opcode byte, as far as the longest instruction needs them and there are cells (R83). -/
def State.operandBytes (s : State) : List Byte := s.mem.window 2 (s.pc.toNat + 1)

theorem fetchBytes_eq_cons {s : State} (h : s.pc.toNat ≤ 255) :
    s.fetchBytes = s.byteAt s.pc.toNat :: s.operandBytes :=
  if_pos (Nat.lt_succ_of_le h)

theorem length_operandBytes (s : State) : s.operandBytes.length = min 2 (255 - s.pc.toNat) := by
  have hwindow : s.operandBytes.length = min 2 (256 - (s.pc.toNat + 1)) := Memory.window_length ..
  omega

theorem operandBytes_getElem? {s : State} {k : Nat} (hk : k < 2) (h : s.pc.toNat + 1 + k ≤ 255) :
    s.operandBytes[k]? = some (s.byteAt (s.pc.toNat + 1 + k)) := by
  have hlt : k < s.operandBytes.length := by rw [length_operandBytes]; omega
  exact (List.getElem?_eq_getElem hlt).trans (congrArg some (Memory.window_getElem ..))

/-- Bytes held in the cells from the program counter up, no more than an instruction has, are the first that the decode
phase looks at. -/
theorem isPrefix_fetchBytes {s : State} {bytes : List Byte} (hlen : bytes.length ≤ Config.maxInstrBytes)
    (h : ∀ (k : Nat) (hk : k < bytes.length), s.pc.toNat + k ≤ 255 ∧ s.byteAt (s.pc.toNat + k) = bytes[k]) :
    bytes <+: s.fetchBytes := by
  have hwindow : s.fetchBytes.length = min 3 (256 - s.pc.toNat) := Memory.window_length ..
  have hle : bytes.length ≤ s.fetchBytes.length := by
    rcases Nat.eq_zero_or_pos bytes.length with h0 | hpos
    · omega
    · have hlast := (h (bytes.length - 1) (Nat.sub_one_lt_of_lt hpos)).1
      have hmax : bytes.length ≤ 3 := hlen
      omega
  refine List.prefix_iff_getElem.mpr ⟨hle, fun k hk => ?_⟩
  rw [← (h k hk).2]
  exact (Memory.window_getElem ..).symm

theorem step_of_fetchDecode_ok {s : State} {i : Instr} (hs : s.state = .running) (h : s.fetchDecode = .ok i) :
    step s = exec i s.beginCycle := by
  simp only [step, hs, h]

theorem step_of_fetchDecode_error {s : State} {e : DecodeError} (hs : s.state = .running)
    (h : s.fetchDecode = .error e) : step s = .next (s.beginCycle.raiseDecode e) := by
  simp only [step, hs, h]

/-- The decode phase at a known opcode byte reads the operands of its row (R60, R83). -/
theorem decode_fetchBytes_of_known {s : State} {o : Op} (hpc : s.pc.toNat ≤ 255)
    (ho : s.byteAt s.pc.toNat = o.byte) : decode s.fetchBytes = decodeOperands o.byte o.shape s.operandBytes := by
  rw [fetchBytes_eq_cons hpc, ho, decode_opByte_cons]

end Sys2Proof.Machine
end

section
/-! SUPPORT. What a run does: no cycle outside RUNNING, a run continues where it was cut off, and it ends once (R89,
R90). -/

namespace Sys2Proof.Machine

theorem hostRun_succ_of_step {s t : State} (h : step s = .next t) (n : Nat) : hostRun (n + 1) s = hostRun n t := by
  simp only [hostRun, h]

theorem hostRun_of_not_running {s : State} (h : s.state ≠ .running) (n : Nat) : hostRun n s = s := by
  cases n with
  | zero => rfl
  | succ n =>
    cases ho : step s with
    | next t => exact absurd ((step_next_iff s).mp ⟨t, ho⟩) h
    | fault _ | refused _ => simp only [hostRun, ho]

theorem hostRun_add (m n : Nat) (s : State) : hostRun (m + n) s = hostRun n (hostRun m s) := by
  induction m generalizing s with
  | zero => rw [Nat.zero_add]; rfl
  | succ m ih =>
    by_cases hs : s.state = .running
    · obtain ⟨t, ht⟩ := (step_next_iff s).mpr hs
      rw [Nat.add_right_comm, hostRun_succ_of_step ht, hostRun_succ_of_step ht, ih]
    · simp only [hostRun_of_not_running hs]

/-- Once a run has ended, more cycles change nothing (R89). -/
theorem hostRun_of_ended {s : State} {m n : Nat} (h : (hostRun m s).state ≠ .running) (hle : m ≤ n) :
    hostRun n s = hostRun m s := by
  obtain ⟨k, rfl⟩ := Nat.exists_eq_add_of_le hle
  rw [hostRun_add, hostRun_of_not_running h]

/-- A run ends in one state only, however far past its end it is looked at. -/
theorem hostRun_eq_of_ended {s : State} {m n : Nat} (hm : (hostRun m s).state ≠ .running)
    (hn : (hostRun n s).state ≠ .running) : hostRun m s = hostRun n s := by
  rcases Nat.le_total m n with hle | hle
  · exact (hostRun_of_ended hm hle).symm
  · exact hostRun_of_ended hn hle

end Sys2Proof.Machine
end

section
/-! The statements of the family 40_fetch_decode_execute.md: the cycle, its decode faults, NOP and the skip, the outcomes
of a run. -/

namespace Sys2Proof.Machine

/-- Settles O5: the decode phase accepts the bytes, so the step is the execute phase. -/
theorem stepRunsDecodedInstruction : Obligations.StepRunsDecodedInstruction :=
  fun _ _ rest hs hd => step_of_fetchDecode_ok hs (fetchDecode_ok_iff.mpr ⟨rest, hd⟩)

/-- Settles O6: the decode phase looks at the encoding and perhaps bytes after it, and reads the instruction back. -/
theorem stepRunsEncodedInstruction : Obligations.StepRunsEncodedInstruction := by
  intro s i hwf hs hcells
  obtain ⟨rest, hbytes⟩ := isPrefix_fetchBytes (length_encode_le i) hcells
  exact stepRunsDecodedInstruction s i rest hs (hbytes ▸ decode_encode_append rest hwf)

/-- Settles O8: there is no byte to decode, and the fault is raised without an opcode. -/
theorem opcodeFetchAt256Faults : Obligations.OpcodeFetchAt256Faults := by
  intro s hs hpc
  have hbytes : s.fetchBytes = [] := fetchBytes_eq_nil (by rw [hpc]; decide)
  have hd : s.fetchDecode = .error .opcodeMissing := fetchDecode_error_iff.mpr (by rw [hbytes]; rfl)
  rw [step_of_fetchDecode_error hs hd, ← hpc]
  rfl

/-- Settles O9: the operands are read by the row's format, which first counts the bytes and then looks at each index. -/
theorem decodePhaseFaults : Obligations.DecodePhaseFaults := by
  intro s o hs hpc ho
  have hdecode := decode_fetchBytes_of_known hpc ho
  have hlen := length_operandBytes s
  refine ⟨fun hpast => ?_, fun hfit hindex => ?_⟩
  · have hmissing : s.operandBytes.length < o.operands := by omega
    exact step_of_fetchDecode_error hs (fetchDecode_error_iff.mpr
      (hdecode.trans (decodeOperands_operandMissing hmissing)))
  · obtain ⟨k, hk, hbad⟩ : ∃ k, k < o.shape.indices ∧ 7 < (s.byteAt (s.pc.toNat + 1 + k)).toNat := by
      rcases hindex with ⟨hpos, hbad⟩ | ⟨hrr, hbad⟩
      · exact ⟨0, o.indices_pos_iff.mpr hpos, hbad⟩
      · exact ⟨1, o.one_lt_indices_iff.mpr hrr, hbad⟩
    have hle : o.operands ≤ 2 := o.operands_le_two
    have hoperands : o.operands ≤ s.operandBytes.length := by omega
    have hk_operand : k < o.operands := hk.trans_le o.shape.indices_le_operands
    have hget := operandBytes_getElem? (s := s) (k := k) (by omega) (by omega)
    exact step_of_fetchDecode_error hs (fetchDecode_error_iff.mpr
      (hdecode.trans (decodeOperands_registerIndex hoperands hk hget hbad)))

/-- Settles O12: a step is defined in RUNNING only, so a run makes none. -/
theorem noCycleUnlessRunning : Obligations.NoCycleUnlessRunning :=
  ⟨fun s hs => by simp only [step, hs], fun s hs => by simp only [step, hs], fun _ n hs => hostRun_of_not_running hs n⟩

/-- Settles O13: the streams grow by what the cycle's one stream transaction carries, if it has one. -/
theorem runningStateHasASuccessor : Obligations.RunningStateHasASuccessor := by
  intro s hs
  obtain ⟨t, ht⟩ := (step_next_iff s).mpr hs
  refine ⟨t, ht, ?_⟩
  have hgrow := step_streamsGrowBy ht
  revert hgrow
  rcases s.cycleEmits with _ | ⟨v⟩ | ⟨a, o⟩
  · exact .inl
  · exact fun hgrow => .inr (.inl ⟨v, hgrow⟩)
  · rintro ⟨hout, hunk, -⟩
    exact .inr (.inr ⟨_, hout, hunk⟩)

/-- Settles O14: the zero byte is NOP's row, and nine bits hold pc + 1 for every address of a cell. -/
theorem nopRule : Obligations.NopRule := by
  refine ⟨fun _ => rfl, fun _ => rfl, fun s hpc => ?_⟩
  bv_omega

/-- Settles O15: the decoder has no row for the byte, and eight bits hold the address of every cell. -/
theorem skipRule : Obligations.SkipRule := by
  refine ⟨fun o rest ho => (unlistedBytesAreSkipped.1 o rest).mpr ho, fun _ _ => rfl, fun s hpc => ?_⟩
  rw [BitVec.toNat_setWidth]
  omega

/-- Settles O48: a run that has not stayed RUNNING has ended, and it ends in one state only. -/
theorem runHasExactlyOneOutcome : Obligations.RunHasExactlyOneOutcome := by
  intro s _
  refine ⟨?_, ?_, ?_, ?_⟩
  · by_cases hrun : Diverges s
    · exact .inr (.inr hrun)
    · obtain ⟨n, hn⟩ := not_forall.mp hrun
      cases hstate : (hostRun n s).state with
      | running => exact absurd hstate hn
      | halted => exact .inl ⟨n, hstate⟩
      | faulted => exact .inr (.inl ⟨n, hstate⟩)
  · rintro ⟨⟨m, hm⟩, n, hn⟩
    have heq : hostRun m s = hostRun n s := hostRun_eq_of_ended (by simp [hm]) (by simp [hn])
    rw [heq, hn] at hm
    cases hm
  · exact fun ⟨⟨n, hn⟩, hrun⟩ => nomatch hn.symm.trans (hrun n)
  · exact fun ⟨⟨n, hn⟩, hrun⟩ => nomatch hn.symm.trans (hrun n)

end Sys2Proof.Machine
end

section
/-! SUPPORT. The decode faults of the formats R and RI, for every row that has the format (R62, R83, R164). -/

namespace Sys2Proof.Machine

theorem decodeFaultsR_of_operands {o : Op} (ho : o.operands = 1) : DecodeFaultsR o.byte := by
  intro s hs hpc hbyte
  obtain ⟨hmissing, hindex⟩ := decodePhaseFaults s o hs hpc hbyte
  exact ⟨fun hlast => hmissing (by omega), fun hfit hbad => hindex (by omega) (.inl ⟨ho.ge, hbad⟩)⟩

theorem decodeFaultsRI_of_operands {o : Op} (ho : o.operands = 2) : DecodeFaultsRI o.byte := by
  intro s hs hpc hbyte
  obtain ⟨hmissing, hindex⟩ := decodePhaseFaults s o hs hpc hbyte
  exact ⟨fun hlast => hmissing (by omega), fun hfit hbad => hindex (by omega) (.inl ⟨by omega, hbad⟩)⟩

end Sys2Proof.Machine
end

section
/-! SUPPORT. Of the instructions that fall through to the next one, HLT alone commits the program counter unchanged
(R102). -/

namespace Sys2Proof.Machine

/-- Nine bits do not wrap an increment of 1, 2 or 3 back to where it began. -/
theorem commit_pc_eq_iff_hlt {i : Instr} (s : State)
    (hno : ∀ r, i ≠ .jmp r ∧ i ≠ .jeq r ∧ i ≠ .jne r ∧ i ≠ .call r) (hret : i ≠ .ret) :
    (s.commit i).pc = s.pc ↔ i = .hlt := by
  cases i
  case hlt => exact iff_of_true rfl rfl
  case nop | skip => exact iff_of_false (add_ne_left.mpr (by decide : (1 : Pc) ≠ 0)) nofun
  case push | pop | prn => exact iff_of_false (add_ne_left.mpr (by decide : (2 : Pc) ≠ 0)) nofun
  case ldi | add | mul | cmp => exact iff_of_false (add_ne_left.mpr (by decide : (3 : Pc) ≠ 0)) nofun
  case jmp r | jeq r | jne r | call r => exact absurd (hno r) (by simp)
  case ret => exact absurd rfl hret

end Sys2Proof.Machine
end

section
/-! The statements of the family 41_data_movement.md: LDI, PRN, HLT, and the program counter that HLT alone holds. -/

namespace Sys2Proof.Machine

/-- Settles O16: the decoder reads the encoding back, and LDI's row has two operands. -/
theorem ldiRule : Obligations.LdiRule :=
  ⟨fun r v rest => decode_encode_append (i := .ldi r v) rest rfl, decodeFaultsRI_of_operands (o := .ldi) rfl,
    fun _ _ _ => rfl⟩

/-- Settles O17: the decoder reads the encoding back, and PRN's row has one operand. -/
theorem prnRule : Obligations.PrnRule :=
  ⟨fun r rest => decode_encode_append (i := .prn r) rest rfl, decodeFaultsR_of_operands (o := .prn) rfl,
    fun _ _ => rfl⟩

/-- Settles O54: a fault is excluded, and every commit but HLT's adds the instruction's length. -/
theorem onlyHltHoldsThePc : Obligations.OnlyHltHoldsThePc := by
  intro i s t h hstate hno hret
  rcases exec_cases h with ⟨k, -, rfl⟩ | ⟨-, rfl⟩
  · exact absurd rfl hstate
  · exact commit_pc_eq_iff_hlt s hno hret

/-- Settles O18: the state HLT answers is HALTED, where a run makes no cycle. -/
theorem hltRule : Obligations.HltRule := by
  refine ⟨fun rest => decode_encode_append (i := .hlt) rest rfl, fun _ => rfl, fun s t n h => ?_⟩
  obtain rfl : s.halt = t := Host.Outcome.next.inj h
  exact hostRun_of_not_running (by simp) n

end Sys2Proof.Machine
end

section
/-! SUPPORT. The stack pointer that an instruction tests and lowers (R110 to R112, R121). -/

namespace Sys2Proof.Machine

theorem exec_of_fault {i : Instr} {s : State} {k : ErrorKind} (h : s.execFault i = some k) :
    exec i s = .next (s.raise k (encode i).head?) := by
  rw [exec_eq, execResult_of_fault h]

theorem exec_of_no_fault {i : Instr} {s : State} (h : s.execFault i = none) : exec i s = .next (s.commit i) := by
  rw [exec_eq, execResult_of_no_fault h]

theorem execFault_push (r : Reg) (s : State) :
    s.execFault (.push r) = if s.reg .sp = 0 then some .stackError else none := rfl

/-- A POP into another register tests the stack pointer it read at (R112). -/
theorem execFault_pop_of_ne_sp {r : Reg} (h : r ≠ .sp) (s : State) :
    s.execFault (.pop r) = if s.reg .sp = 0 then some .stackError else none := by
  rw [State.execFault, reg_setReg_other s _ h.symm]

/-- POP R7 tests the loaded value (R112). -/
theorem execFault_pop_sp (s : State) :
    s.execFault (.pop .sp) = if s.byteAt (s.reg .sp).toNat = 0 then some .stackError else none := by
  rw [State.execFault, reg_setReg_self]

/-- A load into another register keeps the stack pointer that is lowered (R112). -/
theorem lowerSp_setReg_of_ne_sp {r : Reg} (h : r ≠ .sp) (s : State) (v : Byte) :
    (s.setReg r v).lowerSp = (s.setReg r v).setReg .sp (s.reg .sp - 1) := by
  rw [State.lowerSp, reg_setReg_other s v h.symm]

/-- A load into R7 is lowered in its place (R112). -/
theorem lowerSp_setReg_sp (s : State) (v : Byte) : (s.setReg .sp v).lowerSp = s.setReg .sp (v - 1) := by
  rw [State.lowerSp, reg_setReg_self, State.setReg, setReg_x, Regs.set_set_self]
  rfl

/-- The decrement of a stack pointer above 0 does not wrap (R110). -/
theorem lowerSp_sp_toNat {s : State} (h : s.reg .sp ≠ 0) :
    (s.lowerSp.reg .sp).toNat + 1 = (s.reg .sp).toNat := by
  rw [State.lowerSp, reg_setReg_self]
  bv_omega

/-- Apart from LDI R7 and POP R7, a committed instruction leaves the stack pointer or lowers it by one (R110). -/
theorem commit_sp {i : Instr} {s : State} (hf : s.execFault i = none) (hldi : ∀ v, i ≠ .ldi .sp v)
    (hpop : i ≠ .pop .sp) :
    (s.commit i).reg .sp = s.reg .sp ∨ ((s.commit i).reg .sp).toNat + 1 = (s.reg .sp).toNat := by
  cases i
  case push r | call r =>
    have hsp : s.reg .sp ≠ 0 := fun h0 => nomatch hf.symm.trans (if_pos h0)
    exact .inr (lowerSp_sp_toNat hsp)
  case pop r =>
    have hr : r ≠ .sp := fun h => hpop (h ▸ rfl)
    rw [execFault_pop_of_ne_sp hr] at hf
    have hsp : s.reg .sp ≠ 0 := fun h0 => nomatch hf.symm.trans (if_pos h0)
    have hkept := reg_setReg_other s (s.byteAt (s.reg .sp).toNat) hr.symm
    exact .inr ((lowerSp_sp_toNat (hkept.trans_ne hsp)).trans (congrArg BitVec.toNat hkept))
  case ldi r v =>
    have hr : r ≠ .sp := fun h => hldi v (h ▸ rfl)
    exact .inl (reg_setReg_other s v hr.symm)
  all_goals exact .inl rfl

end Sys2Proof.Machine
end

section
/-! The statements of the family 42_stack.md: PUSH, POP, and the stack pointer that moves down only. -/

namespace Sys2Proof.Machine

/-- Settles O19: the stored register is read after the decrement, so PUSH R7 stores the lowered stack pointer. -/
theorem pushRule : Obligations.PushRule := by
  refine ⟨fun r rest => decode_encode_append (i := .push r) rest rfl, decodeFaultsR_of_operands (o := .push) rfl,
    fun r s hsp => ?_, fun r s hsp => exec_of_fault ((execFault_push r s).trans (if_pos hsp))⟩
  have hstored : s.lowerSp.reg r = if r = .r7 then s.reg .sp - 1 else s.reg r := reg_setReg ..
  rw [exec_of_no_fault ((execFault_push r s).trans (if_neg hsp)), ← hstored]
  rfl

/-- Settles O20: the load into another register keeps the stack pointer that is tested and lowered; a load into R7
replaces it. -/
theorem popRule : Obligations.PopRule := by
  refine ⟨fun r rest => decode_encode_append (i := .pop r) rest rfl, decodeFaultsR_of_operands (o := .pop) rfl,
    fun r s hr hsp => ?_, fun r s hr hsp => exec_of_fault ((execFault_pop_of_ne_sp hr s).trans (if_pos hsp)),
    fun s hv => ?_, fun s hv => exec_of_fault ((execFault_pop_sp s).trans (if_pos hv))⟩
  · rw [exec_of_no_fault ((execFault_pop_of_ne_sp hr s).trans (if_neg hsp)), State.commit,
      lowerSp_setReg_of_ne_sp hr]
    rfl
  · rw [exec_of_no_fault ((execFault_pop_sp s).trans (if_neg hv)), State.commit, lowerSp_setReg_sp]
    rfl

/-- Settles O38: a fault changes no register, and a committed decrement does not wrap. -/
theorem stackPointerOnlyMovesDown : Obligations.StackPointerOnlyMovesDown := by
  intro i s t h hldi hpop
  rcases exec_cases h with ⟨k, -, rfl⟩ | ⟨hf, rfl⟩
  · exact .inl rfl
  · exact commit_sp hf hldi hpop

end Sys2Proof.Machine
end

section
/-! SUPPORT. The return address that CALL checks and stores, and what RET finds of it (R121, R122). -/

namespace Sys2Proof.Machine

/-- CALL tests the stack pointer before the return address (R121, R155). -/
theorem execFault_call (r : Reg) (s : State) :
    s.execFault (.call r) =
      if s.reg .sp = 0 then some .stackError
      else if Config.memSize ≤ s.returnAddress then some .memoryAccessError else none := rfl

theorem execFault_call_eq_none {r : Reg} {s : State} (hsp : s.reg .sp ≠ 0) (hpc : s.pc.toNat + 2 ≤ 255) :
    s.execFault (.call r) = none := by
  have hfits : ¬ Config.memSize ≤ s.returnAddress := Nat.not_le_of_lt (Nat.lt_succ_of_le hpc)
  rw [execFault_call, if_neg hsp, if_neg hfits]

theorem execFault_ret (s : State) : s.execFault .ret = none := rfl

@[simp] theorem commit_call_sp (r : Reg) (s : State) : (s.commit (.call r)).reg .sp = s.reg .sp - 1 :=
  reg_setReg_self s .sp _

/-- A committed CALL leaves its return address in the cell at the new stack pointer (R121). -/
theorem commit_call_byteAt_sp {s : State} (hwf : s.mem.wf = true) (r : Reg) :
    (s.commit (.call r)).byteAt ((s.commit (.call r)).reg .sp).toNat = BitVec.ofNat 8 s.returnAddress := by
  rw [commit_call_sp]
  exact Memory.get_set_self hwf _ _

/-- A return address of at most 255 survives the byte it is stored in (R121, R122). -/
theorem returnAddress_stored {s : State} (hpc : s.pc.toNat ≤ 253) :
    (BitVec.ofNat 8 s.returnAddress).setWidth 9 = s.pc + 2 := by
  rw [State.returnAddress]
  bv_omega

end Sys2Proof.Machine
end

section
/-! The statements of the family 43_call_return.md: CALL, RET, and the return to the instruction after the CALL. -/

namespace Sys2Proof.Machine

/-- Settles O21: the target is read after the decrement, so CALL R7 jumps to the lowered stack pointer. -/
theorem callRule : Obligations.CallRule := by
  refine ⟨fun r rest => decode_encode_append (i := .call r) rest rfl, decodeFaultsR_of_operands (o := .call) rfl,
    fun r s hsp hpc => ?_, fun r s hsp => exec_of_fault ((execFault_call r s).trans (if_pos hsp)),
    fun r s hsp hpc => exec_of_fault ((execFault_call r s).trans ((if_neg hsp).trans (if_pos hpc)))⟩
  have htarget : s.lowerSp.reg r = if r = .r7 then s.reg .sp - 1 else s.reg r := reg_setReg ..
  rw [exec_of_no_fault (execFault_call_eq_none hsp hpc), ← htarget]
  rfl

/-- Settles O36: RET reads the byte CALL stored, which is the whole return address, and keeps the stack pointer that
CALL lowered. -/
theorem retReturnsAfterCall : Obligations.RetReturnsAfterCall := by
  intro r s t u hwf hsp hpc h hkept hcell
  obtain rfl : s.commit (.call r) = t :=
    Host.Outcome.next.inj ((exec_of_no_fault (execFault_call_eq_none hsp (by omega))).symm.trans h)
  refine ⟨u.commit .ret, exec_of_no_fault (execFault_ret u), ?_, hkept.trans (commit_call_sp r s)⟩
  calc (u.byteAt (u.reg .sp).toNat).setWidth 9
    _ = (BitVec.ofNat 8 s.returnAddress).setWidth 9 := by rw [hcell, commit_call_byteAt_sp hwf]
    _ = s.pc + 2 := returnAddress_stored hpc

/-- Settles O22: RET raises no fault, and a byte keeps its value in the nine bits of the program counter. -/
theorem retRule : Obligations.RetRule :=
  ⟨fun rest => decode_encode_append (i := .ret) rest rfl, fun s => exec_of_no_fault (execFault_ret s),
    fun _ => BitVec.toNat_setWidth_of_le (by decide)⟩

end Sys2Proof.Machine
end

section
/-! SUPPORT. The decode faults of the format RR, and the flags of a compare in the two forms the spec writes them
(R83, R130, R133, R164). -/

namespace Sys2Proof.Machine

theorem decodeFaultsRR_of_indices {o : Op} (ho : o = .add ∨ o = .mul ∨ o = .cmp) : DecodeFaultsRR o.byte := by
  have htwo : o.operands = 2 := by rcases ho with rfl | rfl | rfl <;> rfl
  intro s hs hpc hbyte
  obtain ⟨hmissing, hindex⟩ := decodePhaseFaults s o hs hpc hbyte
  refine ⟨fun hpast => hmissing (by omega), fun hfit hbad => hindex (by omega) ?_⟩
  exact hbad.imp (⟨by omega, ·⟩) (⟨ho, ·⟩)

/-- The port's table of R130, which asks for the order first. -/
theorem compareFlags_eq_of_order (a b : Byte) :
    compareFlags a b = if a < b then 0b100 else if b < a then 0b010 else 0b001 := by
  simp only [compareFlags, ← BitVec.lt_def]
  rcases BitVec.lt_trichotomy a b with hlt | rfl | hgt
  · rw [if_neg (BitVec.ne_of_lt hlt), if_neg (BitVec.lt_asymm hlt), if_pos hlt]
  · rw [if_pos rfl, if_neg (BitVec.lt_irrefl a), if_neg (BitVec.lt_irrefl a)]
  · rw [if_neg (BitVec.ne_of_lt hgt).symm, if_pos hgt, if_neg (BitVec.lt_asymm hgt), if_pos hgt]

/-- The whole byte `fl` after a compare, as R133 writes it: the five bits above the stored ones are 0. -/
theorem compareFlags_setWidth (a b : Byte) :
    (compareFlags a b).setWidth 8 =
      if a = b then 0b00000001 else if b.toNat < a.toNat then 0b00000010 else (0b00000100 : Byte) := by
  rw [compareFlags, apply_ite (BitVec.setWidth 8), apply_ite (BitVec.setWidth 8)]
  rfl

end Sys2Proof.Machine
end

section
/-! The statements of the family 44_alu.md: ADD, MUL, CMP, and the unit that computes them. -/

namespace Sys2Proof.Machine

/-- Settles O23: the unit drives no flags for a sum or a product, so the commit is the increment of the program counter
alone. -/
theorem addMulRules : Obligations.AddMulRules :=
  ⟨fun a b rest => decode_encode_append (i := .add a b) rest rfl,
    fun a b rest => decode_encode_append (i := .mul a b) rest rfl,
    decodeFaultsRR_of_indices (o := .add) (by simp), decodeFaultsRR_of_indices (o := .mul) (by simp),
    fun a b _ => exec_of_no_fault (i := .add a b) rfl, fun a b _ => exec_of_no_fault (i := .mul a b) rfl⟩

/-- Settles O24: the flag register takes all three bits of the compare. -/
theorem cmpRule : Obligations.CmpRule :=
  ⟨fun a b rest => decode_encode_append (i := .cmp a b) rest rfl, decodeFaultsRR_of_indices (o := .cmp) (by simp),
    fun a b s => ⟨compareFlags (s.reg a) (s.reg b), exec_of_no_fault (i := .cmp a b) rfl, compareFlags_setWidth ..⟩⟩

/-- Settles O29: a sum and a product of bytes are the low eight bits of those of their numbers. -/
theorem aluComputes : Obligations.AluComputes := by
  refine ⟨fun a b => ?_, fun a b => ?_, fun a b => ?_, rfl, rfl, rfl⟩
  · have hsum : BitVec.ofNat 8 ((a.toNat + b.toNat) % 256) = a + b :=
      BitVec.eq_of_toNat_eq (by simp)
    rw [alu, hsum]
  · have hproduct : BitVec.ofNat 8 ((a.toNat * b.toNat) % 256) = a * b :=
      BitVec.eq_of_toNat_eq (by simp)
    rw [alu, hproduct]
  · rw [alu, compareFlags_eq_of_order]

end Sys2Proof.Machine
end

section
/-! SUPPORT. The conditional branches, each decided by bit 0 of the byte `fl` (R19, R142, R143). -/

namespace Sys2Proof.Machine

/-- The EQUAL bit that the branches look at is bit 0 of the byte the spec calls `fl` (R19). -/
@[simp] theorem flByte_getLsbD_zero (s : State) : s.flByte.getLsbD 0 = s.flagE := by
  simp [State.flByte, State.flagE]

theorem exec_jeq_selectPc (r : Reg) (s : State) :
    exec (.jeq r) s = .next (s.selectPc (if s.flByte.getLsbD 0 then .reg (s.reg r) else .inc2)) := by
  rw [exec_jeq, execJeq, flByte_getLsbD_zero]

theorem exec_jne_selectPc (r : Reg) (s : State) :
    exec (.jne r) s = .next (s.selectPc (if s.flByte.getLsbD 0 then .inc2 else .reg (s.reg r))) := by
  rw [exec_jne, execJne, flByte_getLsbD_zero]

end Sys2Proof.Machine
end

section
/-! The statements of the family 45_branch.md: JMP, JEQ, JNE, and the two conditional branches as complements. -/

namespace Sys2Proof.Machine

/-- Settles O25: JMP raises no fault, and its commit selects the register as the program counter. -/
theorem jmpRule : Obligations.JmpRule :=
  ⟨fun r rest => decode_encode_append (i := .jmp r) rest rfl, decodeFaultsR_of_operands (o := .jmp) rfl,
    fun r _ => exec_of_no_fault (i := .jmp r) rfl⟩

/-- Settles O26: the EQUAL bit selects the register, its absence the next instruction. -/
theorem jeqRule : Obligations.JeqRule := by
  refine ⟨fun r rest => decode_encode_append (i := .jeq r) rest rfl, decodeFaultsR_of_operands (o := .jeq) rfl,
    fun r s hequal => ?_, fun r s hunequal => ?_⟩
  · rw [exec_jeq_selectPc, hequal]
    rfl
  · rw [exec_jeq_selectPc, hunequal]
    rfl

/-- Settles O27: the EQUAL bit selects the next instruction, its absence the register. -/
theorem jneRule : Obligations.JneRule := by
  refine ⟨fun r rest => decode_encode_append (i := .jne r) rest rfl, decodeFaultsR_of_operands (o := .jne) rfl,
    fun r s hequal => ?_, fun r s hunequal => ?_⟩
  · rw [exec_jne_selectPc, hequal]
    rfl
  · rw [exec_jne_selectPc, hunequal]
    rfl

/-- Settles O28, by the two values of the EQUAL bit, on each of which JEQ and JNE have a rule. -/
theorem jeqAndJneAreComplements : Obligations.JeqAndJneAreComplements := by
  intro r s
  obtain ⟨-, -, jeqTaken, jeqSkipped⟩ := jeqRule
  obtain ⟨-, -, jneSkipped, jneTaken⟩ := jneRule
  cases hE : s.flByte.getLsbD 0
  case true => exact ⟨_, _, jeqTaken r s hE, jneSkipped r s hE, .inl ⟨rfl, rfl⟩⟩
  case false => exact ⟨_, _, jeqSkipped r s hE, jneTaken r s hE, .inr ⟨rfl, rfl⟩⟩

end Sys2Proof.Machine
end

section
/-! SUPPORT. The fault that a cycle raises, format by format: the decode's faults first, then the Operation's (R83,
R155, R164). -/

namespace Sys2Proof

/-- An operand byte of at most 7 is the index of a register (R62). -/
theorem Reg.exists_byte_eq {b : Byte} (h : b.toNat ≤ 7) : ∃ r : Reg, r.byte = b := by
  obtain ⟨r, hr⟩ := Option.isSome_iff_exists.mp ((Reg.ofByte_isSome_iff b).mpr h)
  exact ⟨r, Reg.byte_of_ofByte hr⟩

/-- `sp` is the register of index 7 (R7, R13). -/
theorem Reg.sp_eq_iff (r : Reg) : .sp = r ↔ r.byte.toNat = 7 := by cases r <;> decide

end Sys2Proof

namespace Sys2Proof.Machine

theorem operandBytes_eq_cons {s : State} (h : s.pc.toNat < 255) :
    s.operandBytes = s.byteAt (s.pc.toNat + 1) :: s.mem.window 1 (s.pc.toNat + 2) :=
  if_pos (Nat.succ_lt_succ h)

theorem operandBytes_eq_pair {s : State} (h : s.pc.toNat < 254) :
    s.operandBytes = [s.byteAt (s.pc.toNat + 1), s.byteAt (s.pc.toNat + 2)] := by
  have hlast : s.mem.window 1 (s.pc.toNat + 2) = [s.byteAt (s.pc.toNat + 2)] :=
    if_pos (Nat.succ_lt_succ (Nat.succ_lt_succ h))
  rw [operandBytes_eq_cons (Nat.lt_succ_of_lt h), hlast]

theorem cycleFault_of_decode_ok {s : State} {i : Instr} {rest : List Byte}
    (h : decode s.fetchBytes = .ok (i, rest)) : s.cycleFault = s.execFault i := by
  simp only [State.cycleFault, fetchDecode_ok_iff.mpr ⟨rest, h⟩]

theorem cycleFault_of_decode_error {s : State} {e : DecodeError} (h : decode s.fetchBytes = .error e) :
    s.cycleFault = some e.kind := by
  simp only [State.cycleFault, fetchDecode_error_iff.mpr h]

/-- The opcode fetch failed (R82). -/
theorem cycleFault_of_pc_past {s : State} (h : 255 < s.pc.toNat) : s.cycleFault = some .memoryAccessError :=
  cycleFault_of_decode_error (e := .opcodeMissing) (congrArg decode (fetchBytes_eq_nil h))

/-- The skip raises no fault (R86). -/
theorem cycleFault_of_unknown {s : State} (hpc : s.pc.toNat ≤ 255) (h : Op.ofByte (s.byteAt s.pc.toNat) = none) :
    s.cycleFault = none :=
  cycleFault_of_decode_ok ((congrArg decode (fetchBytes_eq_cons hpc)).trans (decode_eq_skip_iff.mpr h))

/-- A step that leaves a fault tells which fault the cycle raises. -/
theorem cycleFault_of_step_faultedBy {s : State} {k : ErrorKind} {opcode : Byte}
    (h : step s = .next (s.beginCycle.faultedBy k opcode)) : s.cycleFault = some k := by
  obtain ⟨hs, ⟨k', hk', heq⟩ | ⟨i, -, -, heq⟩⟩ := step_cases h
  · obtain rfl : k = k' := congrArg (·.fault.kind) heq
    exact hk'
  · exact absurd (congrArg State.state heq).symm (commit_not_faulted (s := s.beginCycle) hs i)

section
variable {s : State} {o : Op} {rest : Option ErrorKind} (hs : s.state = .running) (hpc : s.pc.toNat ≤ 255)
  (ho : s.byteAt s.pc.toNat = o.byte)
include hpc ho

theorem cycleFault_formatZ {i : Instr} (hshape : o.shape = .z i) : s.cycleFault = s.execFault i :=
  cycleFault_of_decode_ok (rest := s.operandBytes)
    ((decode_fetchBytes_of_known hpc ho).trans (hshape ▸ decodeOperands_z_iff.mpr ⟨rfl, rfl⟩))

include hs

theorem cycleFault_formatR {f : Reg → Instr} (hshape : o.shape = .r f)
    (hexec : s.pc.toNat < 255 → ∀ r : Reg, r.byte = s.byteAt (s.pc.toNat + 1) → s.execFault (f r) = rest) :
    s.cycleFault =
      if s.pc.toNat = 255 then some .memoryAccessError
      else if 7 < (s.byteAt (s.pc.toNat + 1)).toNat then some .registerIndexError else rest := by
  obtain ⟨hmissing, hindex⟩ := decodeFaultsR_of_operands (congrArg Shape.operands hshape) s hs hpc ho
  split_ifs with hlast hbad
  · exact cycleFault_of_step_faultedBy (hmissing hlast)
  · exact cycleFault_of_step_faultedBy (hindex (Nat.lt_of_le_of_ne hpc hlast) hbad)
  · obtain ⟨r, hr⟩ := Reg.exists_byte_eq (Nat.le_of_not_lt hbad)
    have hlt : s.pc.toNat < 255 := Nat.lt_of_le_of_ne hpc hlast
    have hbytes := operandBytes_eq_cons hlt
    rw [← hexec hlt r hr]
    exact cycleFault_of_decode_ok ((decode_fetchBytes_of_known hpc ho).trans
      (hshape ▸ decodeOperands_r_iff.mpr ⟨r, rfl, hr ▸ hbytes⟩))

theorem cycleFault_formatRI {f : Reg → Byte → Instr} (hshape : o.shape = .ri f)
    (hexec : ∀ r v, s.execFault (f r v) = rest) :
    s.cycleFault =
      if 254 ≤ s.pc.toNat then some .memoryAccessError
      else if 7 < (s.byteAt (s.pc.toNat + 1)).toNat then some .registerIndexError else rest := by
  obtain ⟨hmissing, hindex⟩ := decodeFaultsRI_of_operands (congrArg Shape.operands hshape) s hs hpc ho
  split_ifs with hlast hbad
  · exact cycleFault_of_step_faultedBy (hmissing hlast)
  · exact cycleFault_of_step_faultedBy (hindex (Nat.lt_of_not_le hlast) hbad)
  · obtain ⟨r, hr⟩ := Reg.exists_byte_eq (Nat.le_of_not_lt hbad)
    have hbytes := operandBytes_eq_pair (Nat.lt_of_not_le hlast)
    rw [← hexec r (s.byteAt (s.pc.toNat + 2))]
    exact cycleFault_of_decode_ok ((decode_fetchBytes_of_known hpc ho).trans
      (hshape ▸ decodeOperands_ri_iff.mpr ⟨r, _, rfl, hr ▸ hbytes⟩))

theorem cycleFault_formatRR {f : Reg → Reg → Instr} (hrow : o = .add ∨ o = .mul ∨ o = .cmp)
    (hshape : o.shape = .rr f) (hexec : ∀ a b, s.execFault (f a b) = rest) :
    s.cycleFault =
      if 254 ≤ s.pc.toNat then some .memoryAccessError
      else if 7 < (s.byteAt (s.pc.toNat + 1)).toNat ∨ 7 < (s.byteAt (s.pc.toNat + 2)).toNat then
        some .registerIndexError
      else rest := by
  obtain ⟨hmissing, hindex⟩ := decodeFaultsRR_of_indices hrow s hs hpc ho
  split_ifs with hlast hbad
  · exact cycleFault_of_step_faultedBy (hmissing hlast)
  · exact cycleFault_of_step_faultedBy (hindex (Nat.lt_of_not_le hlast) hbad)
  · obtain ⟨ha, hb⟩ := not_or.mp hbad
    obtain ⟨a, ha⟩ := Reg.exists_byte_eq (Nat.le_of_not_lt ha)
    obtain ⟨b, hb⟩ := Reg.exists_byte_eq (Nat.le_of_not_lt hb)
    have hbytes := operandBytes_eq_pair (Nat.lt_of_not_le hlast)
    rw [← hexec a b]
    exact cycleFault_of_decode_ok ((decode_fetchBytes_of_known hpc ho).trans
      (hshape ▸ decodeOperands_rr_iff.mpr ⟨a, b, rfl, ha ▸ hb ▸ hbytes⟩))

end

/-- POP tests the loaded value when its register is R7, and else the stack pointer (R112). -/
theorem execFault_pop (r : Reg) (s : State) :
    s.execFault (.pop r) =
      if (if r.byte.toNat = 7 then s.byteAt (s.reg .sp).toNat else s.reg .sp) = 0 then some .stackError
      else none := by
  simp only [State.execFault, reg_setReg, Reg.sp_eq_iff]

/-- At an address where CALL's operand is a cell, the return address is 256 exactly at 254 (R121, R153). -/
theorem memSize_le_returnAddress_iff {s : State} (h : s.pc.toNat < 255) :
    Config.memSize ≤ s.returnAddress ↔ s.pc.toNat = 254 := by
  change 256 ≤ s.pc.toNat + 2 ↔ s.pc.toNat = 254
  omega

/-- The table of R164, written out as `expectedFault`, is the fault that the cycle raises. -/
theorem cycleFault_eq_expectedFault {s : State} (hs : s.state = .running) : s.cycleFault = expectedFault s := by
  by_cases hpc : 255 < s.pc.toNat
  · rw [cycleFault_of_pc_past hpc, expectedFault, if_pos hpc]
  · rw [expectedFault, if_neg hpc]
    have hpc := Nat.le_of_not_lt hpc
    cases hop : Op.ofByte (s.byteAt s.pc.toNat) with
    | none => exact cycleFault_of_unknown hpc hop
    | some o =>
      have ho : s.byteAt s.pc.toNat = o.byte := (Op.byte_of_ofByte hop).symm
      cases o with
      | nop | hlt | ret => exact cycleFault_formatZ hpc ho rfl
      | prn | jmp | jeq | jne => exact cycleFault_formatR hs hpc ho rfl fun _ _ _ => rfl
      | push => exact cycleFault_formatR hs hpc ho rfl fun _ r _ => execFault_push r s
      | pop => exact cycleFault_formatR hs hpc ho rfl fun _ r hr => hr ▸ execFault_pop r s
      | call =>
        refine cycleFault_formatR hs hpc ho rfl fun hlt r _ => ?_
        simp only [execFault_call, memSize_le_returnAddress_iff hlt]
      | ldi => exact cycleFault_formatRI hs hpc ho rfl fun _ _ => rfl
      | add | mul | cmp => exact cycleFault_formatRR hs hpc ho (by simp) rfl fun _ _ => rfl

/-- A cycle that raises no fault keeps the record and does not end in FAULTED. -/
theorem step_of_cycleFault_none {s t : State} (h : step s = .next t) (hno : s.cycleFault = none) :
    t.state ≠ .faulted ∧ t.fault = s.fault := by
  obtain ⟨hs, ⟨k, hk, -⟩ | ⟨i, -, -, rfl⟩⟩ := step_cases h
  · cases hno.symm.trans hk
  · exact ⟨commit_not_faulted (s := s.beginCycle) hs i, commit_fault ..⟩

/-- A cycle that raises a fault ends in FAULTED with the kind recorded (R157). -/
theorem step_of_cycleFault_some {s t : State} {k : ErrorKind} (h : step s = .next t) (hk : s.cycleFault = some k) :
    t.state = .faulted ∧ t.fault.kind = k := by
  obtain ⟨-, ⟨k', hk', rfl⟩ | ⟨i, hd, hno, -⟩⟩ := step_cases h
  · exact ⟨rfl, Option.some.inj (hk'.symm.trans hk)⟩
  · simp only [State.cycleFault, hd, hno] at hk
    cases hk

end Sys2Proof.Machine
end

section
/-! SUPPORT. The index of the free values passes through a cycle (R165). -/

namespace Sys2Proof.Machine

theorem execFault_with_freeIx (s : State) (ix : Nat) (i : Instr) :
    ({ s with freeIx := ix } : State).execFault i = s.execFault i := by
  cases i <;> rfl

theorem commit_with_freeIx (s : State) (ix : Nat) (i : Instr) :
    ({ s with freeIx := ix } : State).commit i = { s.commit i with freeIx := ix } := by
  cases i <;> rfl

theorem execResult_with_freeIx (s : State) (ix : Nat) (i : Instr) :
    ({ s with freeIx := ix } : State).execResult i = { s.execResult i with freeIx := ix } := by
  unfold State.execResult
  rw [execFault_with_freeIx]
  cases s.execFault i with
  | some k => rfl
  | none => exact commit_with_freeIx s ix i

theorem raiseDecode_with_freeIx (s : State) (ix : Nat) (e : DecodeError) :
    ({ s with freeIx := ix } : State).raiseDecode e = { s.raiseDecode e with freeIx := ix } := by
  cases e <;> rfl

end Sys2Proof.Machine
end

section
/-! SUPPORT. The load of an image that is too long, and the codes of the kinds (R151, R152). -/

namespace Sys2Proof.Machine

theorem hostLoad_of_too_long {image : List Byte} {s : State} (hs : s.state = .running) (hran : s.ran = false)
    (hlen : Config.memSize < image.length) : hostLoad image s = .next s.loadError := by
  simp only [hostLoad, hs, hran, if_pos hlen, Bool.false_eq_true, if_false]

theorem ErrorKind.code_injective : Function.Injective ErrorKind.code := by
  intro k l
  cases k <;> cases l <;> decide

end Sys2Proof.Machine
end

section
/-! The statements of the family 60_exceptions.md: which fault a cycle raises, what a fault leaves, and the codes of the
kinds. -/

namespace Sys2Proof.Machine

/-- Settles O10: the table gives the fault of the cycle, and a cycle without one does not touch the record. -/
theorem stepFaultsAsTheTableSays : Obligations.StepFaultsAsTheTableSays := by
  intro s hs
  obtain ⟨t, ht⟩ := (step_next_iff s).mpr hs
  refine ⟨t, ht, ?_⟩
  rw [← cycleFault_eq_expectedFault hs]
  cases hk : s.cycleFault with
  | none => exact step_of_cycleFault_none ht hk
  | some k => exact step_of_cycleFault_some ht hk

/-- Settles O11: a step that answers FAULTED raised a fault on the state before, with the opcode byte that was
fetched. -/
theorem faultCommitsNothing : Obligations.FaultCommitsNothing := by
  intro s t hs hstep hfaulted
  obtain ⟨-, ⟨k, hk, rfl⟩ | ⟨i, -, -, rfl⟩⟩ := step_cases hstep
  · have hkind : k ≠ .none := by rcases cycleFault_kind hk with rfl | rfl | rfl <;> exact nofun
    refine ⟨rfl, rfl, rfl, rfl, rfl, rfl, hkind, rfl, fun hpc => ?_, fun hpc => ?_⟩
    · rw [fetchBytes_eq_cons hpc]
      exact ⟨rfl, rfl⟩
    · rw [fetchBytes_eq_nil hpc]
      exact ⟨rfl, rfl⟩
  · exact absurd hfaulted (commit_not_faulted (s := s.beginCycle) hs i)

/-- Settles O53: the cycle overwrites the note, the decode phase sees neither field, and both ways of it carry the
index. -/
theorem stepDrawsNoValue : Obligations.StepDrawsNoValue := by
  intro s ix b hs
  rcases step_running hs with ⟨i, hd, hstep⟩ | ⟨e, hd, hstep⟩
  · refine ⟨_, hstep.trans (exec_eq i _), ?_⟩
    rw [← execResult_with_freeIx, ← exec_eq]
    exact step_of_fetchDecode_ok hs hd
  · refine ⟨_, hstep, ?_⟩
    rw [← raiseDecode_with_freeIx]
    exact step_of_fetchDecode_error hs hd

/-- Settles O45: the load answers FAULTED, and outside RUNNING there is no cycle. -/
theorem longImageIsALoadError : Obligations.LongImageIsALoadError := by
  intro image s hs hran hlen
  have hload := hostLoad_of_too_long hs hran hlen
  refine ⟨_, _, hload, fun t n ht => ?_⟩
  obtain rfl : s.loadError = t := Host.Outcome.next.inj (hload.symm.trans ht)
  obtain ⟨-, hstop, hstay⟩ := noCycleUnlessRunning
  exact ⟨hstay _ n nofun, hstop _ rfl⟩

/-- Settles O49: the codes are injective, so what the invariant says of the kind holds of the port. -/
theorem faultKindCodes : Obligations.FaultKindCodes := by
  refine ⟨rfl, rfl, rfl, rfl, rfl, rfl, rfl, fun s h => ⟨?_, ?_, ?_⟩⟩
  · calc s.fault.kind.code = 0
      _ ↔ s.fault.kind = .none := ErrorKind.code_injective.eq_iff (b := .none)
      _ ↔ s.state ≠ .faulted := (not_iff_comm.mp h.latched_iff_faulted).symm
      _ ↔ s.statusPorts.faulted = false := decide_eq_false_iff_not.symm
  · exact fun h2 => h.unknown_never_latched (ErrorKind.code_injective h2)
  · exact fun h5 => h.unsupported_never_raised (ErrorKind.code_injective h5)

end Sys2Proof.Machine
end

section
/-! SUPPORT. The registers after reset, everything the host's load can do (R181, R182), and the loaded memory: the image
with zeros above. -/

namespace Sys2Proof.Machine

theorem reset_reg (r : Reg) : State.reset.reg r = 0x00 := by cases r <;> rfl

/-- The state that a successful load answers (R181). -/
def State.loaded (s : State) (image : List Byte) : State :=
  { s.setReg .sp Config.spInit with mem := Memory.ofImage image }

theorem hostLoad_of_fits {image : List Byte} {s : State} (hs : s.state = .running) (hran : s.ran = false)
    (hlen : image.length ≤ Config.memSize) : hostLoad image s = .next (s.loaded image) := by
  simp only [hostLoad, hs, hran, if_neg (Nat.not_lt_of_le hlen), Bool.false_eq_true, if_false]
  rfl

theorem hostLoad_of_not_running {s : State} (h : s.state ≠ .running) (image : List Byte) :
    hostLoad image s = .refused .loadWhileNotRunning := by
  cases hs : s.state with
  | running => exact absurd hs h
  | halted | faulted => simp only [hostLoad, hs]

theorem hostLoad_of_ran {s : State} (hs : s.state = .running) (hran : s.ran = true) (image : List Byte) :
    hostLoad image s = .refused .loadAfterCycle := by
  simp only [hostLoad, hs, hran, if_true]

/-- A load that answers a state was made in RUNNING before any cycle, and took one of its two ways. -/
theorem hostLoad_cases {image : List Byte} {s t : State} (h : hostLoad image s = .next t) :
    s.state = .running ∧ s.ran = false ∧
    ((Config.memSize < image.length ∧ t = s.loadError) ∨
     (image.length ≤ Config.memSize ∧ t = s.loaded image)) := by
  have hs : s.state = .running := by
    by_contra hs
    exact nomatch (hostLoad_of_not_running hs image).symm.trans h
  have hran : s.ran = false := by
    by_contra hran
    exact nomatch (hostLoad_of_ran hs (Bool.of_not_eq_false hran) image).symm.trans h
  refine ⟨hs, hran, ?_⟩
  rcases Nat.lt_or_ge Config.memSize image.length with hlen | hlen
  · exact .inl ⟨hlen, (Host.Outcome.next.inj ((hostLoad_of_too_long hs hran hlen).symm.trans h)).symm⟩
  · exact .inr ⟨hlen, (Host.Outcome.next.inj ((hostLoad_of_fits hs hran hlen).symm.trans h)).symm⟩

/-- A second load overwrites the two things the first one wrote (R182). -/
theorem loaded_loaded (s : State) (first second : List Byte) :
    (s.loaded first).loaded second = s.loaded second := by
  have hx : (s.x.set .sp Config.spInit).set .sp Config.spInit = s.x.set .sp Config.spInit := Regs.set_set_self ..
  simp only [State.loaded, State.setReg, hx]

theorem Memory.get_ofImage {image : List Byte} (hlen : image.length ≤ Config.memSize) {a : Nat}
    (ha : a < image.length) : (Memory.ofImage image).get a = image[a] := by
  have hread := Memory.get_setBytes_at image [] 0 a ha Memory.wf_nil (by omega)
  rwa [Nat.zero_add] at hread

theorem Memory.get_ofImage_above {image : List Byte} {a : Nat} (ha : image.length ≤ a) :
    (Memory.ofImage image).get a = 0x00 :=
  Memory.get_setBytes_above image [] 0 a (by omega)

theorem RunInvariant.no_opcode_when_running {s : State} (h : RunInvariant s) (hs : s.state = .running) :
    s.fault.opcodeValid = false := by
  rw [h.fault_clear hs]
  rfl

/-- A load writes a canonical memory and the stack pointer, and no clause speaks of the stack pointer. -/
theorem RunInvariant.loaded {s : State} (h : RunInvariant s) (hs : s.state = .running) (image : List Byte) :
    RunInvariant (s.loaded image) :=
  { h with
    memory_canonical := Memory.wf_ofImage image
    fault_opcode_fetched := fun hv => nomatch (h.no_opcode_when_running hs).symm.trans hv
    halted_at_hlt := fun hh => nomatch hs.symm.trans hh }

/-- A LoadError records its kind in a record that was clear, and its memory is canonical whatever it holds (R152). -/
theorem RunInvariant.loadError {s : State} (h : RunInvariant s) (hs : s.state = .running) :
    RunInvariant s.loadError :=
  { h with
    memory_canonical := Memory.wf_unspecified s.freeIx
    latched_iff_faulted := iff_of_true nofun rfl
    unknown_never_latched := nofun
    unsupported_never_raised := nofun
    clear_when_none := nofun
    fault_at_pc := fun _ hk => absurd rfl hk
    fault_opcode_fetched := fun hv => nomatch (h.no_opcode_when_running hs).symm.trans hv
    halted_at_hlt := nofun }

end Sys2Proof.Machine
end

section
/-! SUPPORT. What every step keeps, a run keeps; and flags that are set are kept by every step (R196). -/

namespace Sys2Proof.Machine

theorem hostRun_keeps {P : State → Prop} (hstep : ∀ {s t : State}, P s → step s = .next t → P t) {s : State}
    (h : P s) (n : Nat) : P (hostRun n s) := by
  induction n generalizing s with
  | zero => exact h
  | succ n ih =>
    by_cases hs : s.state = .running
    · obtain ⟨t, ht⟩ := (step_next_iff s).mpr hs
      rw [hostRun_succ_of_step ht]
      exact ih (hstep h ht)
    · rw [hostRun_of_not_running hs]
      exact h

theorem compareFlags_ne_zero (a b : Byte) : compareFlags a b ≠ 0 := by
  rcases compareFlags_one_hot a b with h | h | h
  all_goals rw [h]; decide

theorem commit_fl_ne_zero {s : State} (h : s.fl ≠ 0) (i : Instr) : (s.commit i).fl ≠ 0 := by
  cases i
  case cmp a b => exact compareFlags_ne_zero _ _
  all_goals exact h

theorem step_fl_ne_zero {s t : State} (h : s.fl ≠ 0) (hstep : step s = .next t) : t.fl ≠ 0 := by
  obtain ⟨-, ⟨k, -, rfl⟩ | ⟨i, -, -, rfl⟩⟩ := step_cases hstep
  · exact h
  · exact commit_fl_ne_zero (s := s.beginCycle) h i

end Sys2Proof.Machine
end

section
/-! SUPPORT. What PUSH and POP of a register other than R7 commit, with the stack pointer as a number (R111, R112). -/

namespace Sys2Proof.Machine

theorem sp_ne_zero_of_pos {s : State} (h : 0 < (s.reg .sp).toNat) : s.reg .sp ≠ 0 := fun h0 => by simp [h0] at h

theorem exec_push_commits {s : State} (h : 0 < (s.reg .sp).toNat) (r : Reg) :
    exec (.push r) s = .next (s.commit (.push r)) :=
  exec_of_no_fault ((execFault_push r s).trans (if_neg (sp_ne_zero_of_pos h)))

theorem exec_pop_commits {s : State} (h : 0 < (s.reg .sp).toNat) {r : Reg} (hr : r ≠ .sp) :
    exec (.pop r) s = .next (s.commit (.pop r)) :=
  exec_of_no_fault ((execFault_pop_of_ne_sp hr s).trans (if_neg (sp_ne_zero_of_pos h)))

theorem commit_push_sp_toNat {s : State} (h : 0 < (s.reg .sp).toNat) (r : Reg) :
    ((s.commit (.push r)).reg .sp).toNat = (s.reg .sp).toNat - 1 :=
  Nat.eq_sub_of_add_eq (lowerSp_sp_toNat (sp_ne_zero_of_pos h))

theorem commit_pop_sp_toNat {s : State} (h : 0 < (s.reg .sp).toNat) {r : Reg} (hr : r ≠ .sp) :
    ((s.commit (.pop r)).reg .sp).toNat = (s.reg .sp).toNat - 1 := by
  have hkept := reg_setReg_other s (s.byteAt (s.reg .sp).toNat) hr.symm
  have hlow := lowerSp_sp_toNat (hkept.trans_ne (sp_ne_zero_of_pos h))
  rw [hkept] at hlow
  exact Nat.eq_sub_of_add_eq hlow

/-- The cell of a PUSH holds the register's value afterwards, and every other cell what it held. -/
theorem commit_push_byteAt {s : State} (hwf : s.mem.wf = true) (h : 0 < (s.reg .sp).toNat) {r : Reg} (hr : r ≠ .sp)
    (a : Nat) :
    (s.commit (.push r)).byteAt a = if a = (s.reg .sp).toNat - 1 then s.reg r else s.byteAt a := by
  have hcell : (s.reg .sp - 1).toNat = (s.reg .sp).toNat - 1 := by bv_omega
  have hvalue : s.lowerSp.reg r = s.reg r := reg_setReg_other s _ hr
  rw [← hcell, ← hvalue]
  exact Memory.get_set hwf _ _ _

theorem commit_push_reg {s : State} {r q : Reg} (hq : q ≠ .sp) : (s.commit (.push r)).reg q = s.reg q :=
  commit_reg (by simpa [writesReg] using hq) s

theorem commit_pop_byteAt (s : State) (r : Reg) (a : Nat) : (s.commit (.pop r)).byteAt a = s.byteAt a := rfl

theorem commit_pop_reg_self (s : State) {r : Reg} (hr : r ≠ .sp) :
    (s.commit (.pop r)).reg r = s.byteAt (s.reg .sp).toNat :=
  (reg_setReg_other _ _ hr).trans (reg_setReg_self ..)

theorem commit_pop_reg_other (s : State) {r q : Reg} (hq : q ≠ .sp) (hqr : q ≠ r) :
    (s.commit (.pop r)).reg q = s.reg q :=
  commit_reg (by simp [writesReg, hq, hqr]) s

end Sys2Proof.Machine
end

section
/-! The statements of the family 70_reset_and_hazards.md: reset, load, the launch state, the stack that is no stack, and
the flags that stay set. -/

namespace Sys2Proof.Machine

/-- Settles O37: the two pushes fill the cells at `sp - 1` and `sp - 2`, and the two pops read those at `sp - 2` and
`sp - 3`. -/
theorem twoPushesTwoPopsAreNotLifo : Obligations.TwoPushesTwoPopsAreNotLifo := by
  intro a b c d s hwf hsp ha hb hc hd hcd
  let s1 := s.commit (.push a)
  let s2 := s1.commit (.push b)
  let s3 := s2.commit (.pop c)
  let t := s3.commit (.pop d)
  have hsp1 : (s1.reg .sp).toNat = (s.reg .sp).toNat - 1 := commit_push_sp_toNat (by omega) a
  have hsp2 : (s2.reg .sp).toNat = (s1.reg .sp).toNat - 1 := commit_push_sp_toNat (by omega) b
  have hsp3 : (s3.reg .sp).toNat = (s2.reg .sp).toNat - 1 := commit_pop_sp_toNat (by omega) hc
  have hspt : (t.reg .sp).toNat = (s3.reg .sp).toNat - 1 := commit_pop_sp_toNat (by omega) hd
  have hmem1 := commit_push_byteAt hwf (by omega) ha
  have hmem2 := commit_push_byteAt (s := s1) (commit_mem_wf hwf _) (by omega) hb
  refine ⟨s1, s2, s3, t, exec_push_commits (by omega) a, exec_push_commits (by omega) b,
    exec_pop_commits (by omega) hc, exec_pop_commits (by omega) hd, ?_, ?_, by omega, ?_⟩
  · calc t.reg c
      _ = s3.reg c := commit_pop_reg_other s3 hc hcd
      _ = s2.byteAt (s2.reg .sp).toNat := commit_pop_reg_self s2 hc
      _ = s1.reg b := by rw [hmem2, if_pos hsp2]
      _ = s.reg b := commit_push_reg hb
  · calc t.reg d
      _ = s2.byteAt (s3.reg .sp).toNat := commit_pop_reg_self s3 hd
      _ = s1.byteAt (s3.reg .sp).toNat := by rw [hmem2, if_neg (by omega)]
      _ = s.byteAt (s3.reg .sp).toNat := by rw [hmem1, if_neg (by omega)]
      _ = s.byteAt ((s.reg .sp).toNat - 3) := congrArg s.byteAt (by omega)
  · calc t.byteAt ((s.reg .sp).toNat - 1)
      _ = s1.byteAt ((s.reg .sp).toNat - 1) := by rw [commit_pop_byteAt, commit_pop_byteAt, hmem2, if_neg (by omega)]
      _ = s.reg a := by rw [hmem1, if_pos rfl]

/-- Settles O41: the load was made in RUNNING, where the record is clear, and both of its ways keep the invariant. -/
theorem loadKeepsRunInvariant : Obligations.LoadKeepsRunInvariant := by
  intro image s t h hload
  obtain ⟨hs, -, ⟨-, rfl⟩ | ⟨-, rfl⟩⟩ := hostLoad_cases hload
  · exact h.loadError hs
  · exact h.loaded hs image

/-- Settles O42: a run keeps what each step keeps, and a CMP leaves one flag set. -/
theorem flagsNeverClearAgain : Obligations.FlagsNeverClearAgain := by
  refine ⟨?_, ?_⟩
  · rintro s _ n h rfl
    exact hostRun_keeps step_fl_ne_zero h n
  · intro a b s t h
    obtain rfl : s.commit (.cmp a b) = t := Host.Outcome.next.inj ((exec_of_no_fault rfl).symm.trans h)
    exact compareFlags_ne_zero (s.reg a) (s.reg b)

/-- Settles O44, with the memory of the image. -/
theorem loadWritesImageAndStackPointer : Obligations.LoadWritesImageAndStackPointer := fun image _ =>
  ⟨fun hs hran hlen => ⟨Memory.ofImage image, hostLoad_of_fits hs hran hlen, fun _ => Memory.get_ofImage hlen,
      fun _ => Memory.get_ofImage_above⟩,
    fun hs => hostLoad_of_not_running hs image, fun hs hran => hostLoad_of_ran hs hran image⟩

/-- Settles O47: a load into the reset state changes memory and register 7 alone. -/
theorem launchStateIsAsListed : Obligations.LaunchStateIsAsListed := by
  intro image hlen
  refine ⟨State.reset.loaded image, hostLoad_of_fits rfl rfl hlen, fun _ => Memory.get_ofImage hlen,
    fun _ ha _ => Memory.get_ofImage_above ha, fun r hr => ?_, rfl, rfl, rfl, rfl, rfl, rfl, rfl⟩
  calc (State.reset.setReg .sp Config.spInit).reg r
    _ = State.reset.reg r := reg_setReg_other State.reset _ hr
    _ = 0x00 := reset_reg r

/-- Settles O43: reset does not look at the state, and outside RUNNING there is neither a cycle nor a load. -/
theorem resetIsTheWayOut : Obligations.ResetIsTheWayOut :=
  ⟨fun _ => ⟨Memory.get_nil, reset_reg, rfl, rfl, rfl, rfl, rfl, rfl⟩,
    fun _ n image hs => ⟨hostRun_of_not_running hs n, hostLoad_of_not_running hs image⟩⟩

/-- Settles O46: after the first load the second is still allowed, and it overwrites all that the first wrote. -/
theorem secondLoadLeavesNoStaleBytes : Obligations.SecondLoadLeavesNoStaleBytes := by
  intro first second s t hfirst hsecond hload
  obtain ⟨hs, hran, ⟨hlong, -⟩ | ⟨-, rfl⟩⟩ := hostLoad_cases hload
  · exact absurd hfirst (Nat.not_le_of_lt hlong)
  · calc hostLoad second (s.loaded first)
      _ = .next ((s.loaded first).loaded second) := hostLoad_of_fits (s := s.loaded first) hs hran hsecond
      _ = .next (s.loaded second) := by rw [loaded_loaded]
      _ = hostLoad second s := (hostLoad_of_fits hs hran hsecond).symm

end Sys2Proof.Machine
end

section
/-! SUPPORT. A table word placed by `withFetchWord` (log entry 4), as the decode phase of the next cycle sees it. -/

namespace Sys2Proof.Machine

/-- Bytes that were written are looked at as they were written, when all of them have a cell. -/
theorem Memory.window_setBytes {m : Memory} (hwf : m.wf = true) {a : Nat} {bs : List Byte}
    (hfit : a + bs.length ≤ Config.memSize) : (Memory.setBytes m a bs).window bs.length a = bs := by
  have hlen : ((Memory.setBytes m a bs).window bs.length a).length = bs.length := by
    rw [Memory.window_length]
    omega
  refine List.ext_getElem hlen fun k _ hk => ?_
  calc ((Memory.setBytes m a bs).window bs.length a)[k]
    _ = (Memory.setBytes m a bs).get (a + k) := Memory.window_getElem ..
    _ = bs[k] := Memory.get_setBytes_at bs m a k hk hwf (by omega)

theorem decodeTableWord_eq_some_iff {nbits w : Nat} {i : Instr} :
    decodeTableWord nbits w = some i ↔ ∃ rest, decode (tableBytes nbits w) = .ok (i, rest) := by
  unfold decodeTableWord
  split <;> simp_all

/-- A table word is as long as the longest instruction, so it is all that the decode phase looks at. -/
theorem fetchBytes_withFetchWord {s : State} (hwf : s.mem.wf = true) (hpc : s.pc.toNat ≤ 253) (nbits w : Nat) :
    (s.withFetchWord nbits w).fetchBytes = tableBytes nbits w :=
  Memory.window_setBytes hwf (bs := tableBytes nbits w) (Nat.add_le_add_right hpc 3)

/-- Settles O7: the decode phase reads the word's own bytes, and a step runs what the decode phase reads. -/
theorem fetchWordRuns : Obligations.FetchWordRuns := by
  intro s nbits w i hwf hpc hword
  obtain ⟨rest, hdecode⟩ := decodeTableWord_eq_some_iff.mp hword
  rw [← fetchBytes_withFetchWord hwf hpc] at hdecode
  exact stepRunsDecodedInstruction (s.withFetchWord nbits w) i rest rfl hdecode

end Sys2Proof.Machine
end
